-- ==== Sys2Proof/Word.lean ====
section
/-! DEFINITION. The machine's word and byte (10_state.md R21, R23; 20_memory.md R50). -/

namespace Sys2Proof

/-- A 16-bit value: general and external registers, data, addresses, instruction words (R21, R23, R70; DEDUCED, log 1). -/
abbrev Word := BitVec 16

/-- One byte of memory (R50). -/
abbrev Byte := BitVec 8

/-- Two bytes as one value, the first in bits 15:8 (R8, R52). -/
def Word.ofBytes (hi lo : Byte) : Word := hi ++ lo

/-- Bits 15:8. -/
def Word.hiByte (w : Word) : Byte := w.extractLsb' 8 8

/-- Bits 7:0. -/
def Word.loByte (w : Word) : Byte := w.extractLsb' 0 8

end Sys2Proof
end

