-- ==== Sys2Proof/Config.lean ====
section
/-! DEFINITION. What an implementation fixes (00_scope.md R7), and the one free value of the model. -/

namespace Sys2Proof

/-- `FL_RESET`: which one flag is set after reset (R42 leaves it open among the three). -/
inductive FlReset where
  | less
  | equal
  | greater
deriving DecidableEq, Repr

namespace Config

/-- `CF_S`, fixed to 0: WRS and RDS do not exist (R38, R84; DEDUCED from D12, log 6). -/
def cfS : BitVec 1 := 0#1

/-- FREE VALUE. The outcome of the n-th condition test whose outcome the spec leaves to a draw (40_cycle_nop_hlt.md R101,
D9; log 13). It has no body: a claim holds whatever it is. -/
opaque looseCond : Nat → Bool

end Config

end Sys2Proof
end

