-- ==== Sys2Proof/Syntax.lean ====
section
/-! DEFINITION. The instructions, one constructor per row of spec/opcode_table.json (30_encoding.md R75, R76). The suffix R or I
is the row's format. Fields that the decoder ignores (R80) are no part of an instruction. -/

namespace Sys2Proof

/-- A general register (10_state.md R21). -/
inductive Reg where
  | r0 | r1 | r2 | r3 | r4 | r5 | r6 | r7
deriving DecidableEq, Repr

/-- An external register number, under its register's name; numbers 3 and 6 carry no register (10_state.md R23, R39). -/
inductive ExtReg where
  | ip | sp | lr | e3 | ui | fl | e6 | cf
deriving DecidableEq, Repr

/-- `ccc`, ANDed with FL[2:0]: bit 2 selects L, bit 1 E, bit 0 G (30_encoding.md R77). -/
abbrev CondMask := BitVec 3

/-- The 8-bit immediate of the I-format (30_encoding.md R73). -/
abbrev Imm8 := BitVec 8

/-- The instruction set. `rd` is field B; `rs`, `es` are field C; `imm8` is bits 7:0; `imm4` is bits 3:0 as a number
(R72, R73, R79). -/
inductive Instr where
  | nop
  | hltR (ccc : CondMask)
  | hltI (ccc : CondMask)
  | movR (rd rs : Reg)
  | movI (rd : Reg) (imm8 : Imm8)
  | rdmR (rd rs : Reg)
  | rdmI (rd : Reg) (imm8 : Imm8)
  | wrmR (rd rs : Reg)
  | wrmI (rd : Reg) (imm8 : Imm8)
  | rdxR (rd : Reg) (es : ExtReg)
  | wrxR (ed : ExtReg) (rs : Reg)
  | wrxI (ed : ExtReg) (imm8 : Imm8)
  | pshR (rd : Reg)
  | pshI (rd : Reg)
  | popR (rd : Reg)
  | popI (rd : Reg)
  | mulR (rd rs : Reg)
  | mulI (rd : Reg) (imm8 : Imm8)
  | cmpR (rd rs : Reg)
  | cmpI (rd : Reg) (imm8 : Imm8)
  | tstR (rd rs : Reg)
  | tstI (rd : Reg) (imm8 : Imm8)
  | jmpR (ccc : CondMask) (rs : Reg)
  | jmpI (ccc : CondMask) (imm8 : Imm8)
  | calR (ccc : CondMask) (rs : Reg)
  | calI (ccc : CondMask) (imm8 : Imm8)
  | retR (ccc : CondMask)
  | retI (ccc : CondMask)
  | addR (rd rs : Reg)
  | addI (rd : Reg) (imm8 : Imm8)
  | subR (rd rs : Reg)
  | subI (rd : Reg) (imm8 : Imm8)
  | notR (rd rs : Reg)
  | notI (rd : Reg) (imm8 : Imm8)
  | andR (rd rs : Reg)
  | andI (rd : Reg) (imm8 : Imm8)
  | orrR (rd rs : Reg)
  | orrI (rd : Reg) (imm8 : Imm8)
  | xorR (rd rs : Reg)
  | xorI (rd : Reg) (imm8 : Imm8)
  | sllR (rd rs : Reg)
  | sllI (rd : Reg) (imm4 : Nat)
  | slrR (rd rs : Reg)
  | slrI (rd : Reg) (imm4 : Nat)
deriving DecidableEq, Repr

end Sys2Proof
end

