-- ==== Sys2Proof/Machine/State.lean ====
section
/-! DEFINITION. The state of the machine (10_state.md R20), its reset, and the reasons a step can stop. -/

namespace Sys2Proof.Machine

/-- The eight general registers (10_state.md R21). -/
structure RegFile where
  r0 : Word
  r1 : Word
  r2 : Word
  r3 : Word
  r4 : Word
  r5 : Word
  r6 : Word
  r7 : Word
deriving DecidableEq, Repr

/-- Memory as the bytes that differ from what an unlisted address reads as, by strictly rising address
(`Memory.wf`, Machine/Ops.lean; 20_memory.md R50, R51). -/
abbrev Memory := List Host.Cell

/-- The whole state of the machine (10_state.md R20). `draws` alone is the model's own. -/
structure State where
  /-- R0 to R7 (R21). -/
  regs : RegFile
  /-- IP, the instruction index; before a step, of the instruction about to be executed (R25, R26). -/
  ip : Word
  /-- SP, a byte address (R28). -/
  sp : Word
  /-- LR, an instruction index (R29). -/
  lr : Word
  /-- UI, the high byte of the next immediate in bits 7:0 (R30, R31). -/
  ui : Word
  /-- FL: bits 2:0 are L, E, G; bits 15:3 are zero and stay so (R32, R35). -/
  fl : Word
  /-- CF, the feature flags, a constant of the machine (R37, R38). -/
  cf : Word
  /-- Set by HLT (R40). -/
  halted : Bool
  /-- The one memory, of code and data (R50, R51). -/
  mem : Memory
  /-- The model's own: how many free condition outcomes have been drawn (R101, D9; log 13). -/
  draws : Nat
deriving DecidableEq, Repr

/-- The faults of 60_exceptions.md R151. Each is a precise stop (R150, R153): safe, since the model stops where the hardware may
go on (logs 7, 9, 15, 16, 18). -/
inductive Fault where
  /-- Any instruction's fetch with IP at or above 0x8000; safe (R56, D3; log 7). -/
  | fetchOutOfRange (ip : Word)
  /-- A fetched word with a blank opcode, or the I-format of opcode 0C; safe (R81, R82, D14; log 16). -/
  | reservedInstruction (bits : Word)
  /-- MUL where CF bit 0 is 0, with the instruction bits; safe (R83, R120, D13; log 15). -/
  | featureAbsent (bits : Word)
  /-- RDX from or WRX to external register number 3 or 6; safe (R39, D16; log 18). -/
  | reservedExternalRegister (number : BitVec 3)
  /-- RDM, WRM, PSH or POP at an odd byte address; safe (R54, D5; log 9). -/
  | unalignedAccess (addr : Word)
deriving DecidableEq, Repr

/-- Reasons to give an instruction no meaning. -/
inductive Refusal where
  /-- Raised by `exec` for an instruction without a meaning yet; safe. No arm of `exec` raises it. -/
  | notModelled (mnemonic : String)
deriving DecidableEq, Repr

/-- The bits FL[2:0] of `FL_RESET` (R42). -/
def flResetBits : FlReset → BitVec 3
  | .less => 0b100#3
  | .equal => 0b010#3
  | .greater => 0b001#3

/-- `CF = zext_16(CF_S ++ CF_M)` (R38). -/
def cfValue (cfM : Bool) : Word := (Config.cfS ++ BitVec.ofBool cfM).zeroExtend 16

/-- Reset with the spec's three arguments `CF_M`, `FL_RESET` and `MEM_INIT` (R7, R41, R42, R170, R172). -/
def State.resetWith (cfM : Bool) (flReset : FlReset) (memInit : Memory) : State where
  regs := ⟨0#16, 0#16, 0#16, 0#16, 0#16, 0#16, 0#16, 0#16⟩
  ip := 0#16
  sp := 0#16
  lr := 0#16
  ui := 0#16
  fl := (flResetBits flReset).zeroExtend 16
  cf := cfValue cfM
  halted := false
  mem := memInit
  draws := 0

/-- Reset with the arguments this model names, DESIGN CHOICE: MUL present (log 5), flag E set (log 4), nothing in memory (log 3). -/
def State.reset : State := State.resetWith true .equal []

end Sys2Proof.Machine
end

