-- ==== Sys2Proof/Machine/Ops.lean ====
section
/-! DEFINITION. The named operations over registers and memory, the frame of one cycle, and taking a fault. -/

namespace Sys2Proof.Machine

/-- What executing an instruction answers. -/
abbrev Result := Host.Outcome State Fault Refusal

/-! ### Taking a fault

The hardware has no trap entry and no return from a trap (60_exceptions.md R154, R156), so taking a fault is this one stop: nothing
is saved, no register, byte of memory or `halted` has changed, and there is no next step (R150, R153; log 20). -/

/-- `raise <Fault>(info)` (R150, R153). -/
def raise (f : Fault) : Result := .fault f

/-- Go on with the value of an operation, or take the fault it raised. -/
def orRaise {α : Type} (x : Except Fault α) (k : α → State) : Result :=
  match x with
  | .ok a => .next (k a)
  | .error f => raise f

/-! ### General registers (10_state.md R21) -/

def RegFile.get (f : RegFile) : Reg → Word
  | .r0 => f.r0
  | .r1 => f.r1
  | .r2 => f.r2
  | .r3 => f.r3
  | .r4 => f.r4
  | .r5 => f.r5
  | .r6 => f.r6
  | .r7 => f.r7

def RegFile.set (f : RegFile) (r : Reg) (v : Word) : RegFile :=
  match r with
  | .r0 => { f with r0 := v }
  | .r1 => { f with r1 := v }
  | .r2 => { f with r2 := v }
  | .r3 => { f with r3 := v }
  | .r4 => { f with r4 := v }
  | .r5 => { f with r5 := v }
  | .r6 => { f with r6 := v }
  | .r7 => { f with r7 := v }

/-- `x[i]`. -/
def State.reg (s : State) (r : Reg) : Word := s.regs.get r

/-- `x[i] <- v`: the whole register. -/
def State.setReg (s : State) (r : Reg) (v : Word) : State := { s with regs := s.regs.set r v }

/-! ### The frame of a cycle (40_cycle_nop_hlt.md R100) -/

/-- `ip_in`, what every read of IP by the executing instruction sees (R26; the wrap is log 8). -/
def State.ipIn (s : State) : Word := s.ip + 1#16

/-- The end of a cycle: `IP <- new_IP`, `UI <- new_UI`. -/
def State.endCycle (s : State) (newIp newUi : Word) : State := { s with ip := newIp, ui := newUi }

/-- The default end: the next instruction in sequence, UI cleared (R26, R30). -/
def State.advance (s : State) : State := s.endCycle s.ipIn 0#16

/-- The end of an instruction that writes IP: no increment follows, UI cleared (R26, R30). -/
def State.jumpTo (s : State) (target : Word) : State := s.endCycle target 0#16

/-! ### Memory (20_memory.md R50, R52, R54, R59) -/

/-- What an address reads as that no entry lists; DESIGN CHOICE, unsafe for claims about memory at reset (log 3). -/
def Memory.blank : Byte := 0x00#8

/-- The size of the memory in bytes, `MEM_BYTES` (R50; log 2). -/
def Memory.size : Nat := 65536

/-- Keys strictly rise from above `low`, name existing addresses, and list no blank byte. -/
def Memory.wfAbove : Nat → Memory → Bool
  | _, [] => true
  | low, (a, v) :: m => decide (low ≤ a) && decide (a < Memory.size) && decide (v ≠ Memory.blank) && Memory.wfAbove (a + 1) m

/-- The canonical form: equal memories are equal lists. -/
def Memory.wf (m : Memory) : Bool := Memory.wfAbove 0 m

/-- `M[a]`: the byte last written there, or the blank byte (R59). -/
def Memory.readByte (m : Memory) (a : Nat) : Byte :=
  match m with
  | [] => Memory.blank
  | (k, v) :: rest => if k = a then v else Memory.readByte rest a

/-- Forget what is listed at an address. -/
def Memory.eraseByte (m : Memory) (a : Nat) : Memory := m.filter fun c => decide (c.1 ≠ a)

/-- List a byte before the first higher address. -/
def Memory.placeByte (m : Memory) (a : Nat) (v : Byte) : Memory :=
  match m with
  | [] => [(a, v)]
  | (k, w) :: rest => if a < k then (a, v) :: (k, w) :: rest else (k, w) :: Memory.placeByte rest a v

/-- `M[a] <- v`, keeping the canonical form (R59). -/
def Memory.writeByte (m : Memory) (a : Nat) (v : Byte) : Memory :=
  if v = Memory.blank then Memory.eraseByte m a else Memory.placeByte (Memory.eraseByte m a) a v

/-- The 16-bit value at `a` and `a + 1`, the most significant byte first (R52). -/
def Memory.readWord (m : Memory) (a : Nat) : Word := Word.ofBytes (m.readByte a) (m.readByte (a + 1))

/-- Store a 16-bit value, the most significant byte first (R52). -/
def Memory.writeWord (m : Memory) (a : Nat) (v : Word) : Memory :=
  (m.writeByte a v.hiByte).writeByte (a + 1) v.loByte

/-- Bit 0 of the address is 0 (R54). -/
def aligned (a : Word) : Bool := !a.getLsbD 0

/-- `MemRead(a, 2)` (R52, R54). -/
def memRead (a : Word) (s : State) : Except Fault Word :=
  if aligned a then .ok (s.mem.readWord a.toNat) else .error (.unalignedAccess a)

/-- `MemWrite(a, 2, v)` (R52, R54). -/
def memWrite (a v : Word) (s : State) : Except Fault State :=
  if aligned a then .ok { s with mem := s.mem.writeWord a.toNat v } else .error (.unalignedAccess a)

/-! ### The stack pointer (10_state.md R28; the wrap is log 23) -/

/-- Where PSH stores: `(SP - 2) mod 65536` (R57, R116). -/
def State.pushAddr (s : State) : Word := s.sp - 2#16

/-- SP after POP: `(SP + 2) mod 65536` (R57, R117). -/
def State.popSp (s : State) : Word := s.sp + 2#16

end Sys2Proof.Machine
end

