-- ==== Sys2Proof/Machine/Flags.lean ====
section
/-! DEFINITION. FL: SetFlags, writes of FL, and the condition test (10_state.md R32 to R36; 40_cycle_nop_hlt.md R101). -/

namespace Sys2Proof.Machine

/-- FL[2:0], that is L, E, G (R32). -/
def State.flags (s : State) : BitVec 3 := s.fl.extractLsb' 0 3

/-- `FL[2:0] <- f`; bits 15:3 stay as they are (R33, R35; log 14). -/
def State.putFlags (s : State) (f : BitVec 3) : State := { s with fl := s.fl.extractLsb' 3 13 ++ f }

/-- L, E, G of a 16-bit result (R32, R33). -/
def flagsOf (r : Word) : BitVec 3 :=
  let l := r.msb
  let e := decide (r = 0#16)
  let g := !l && !e
  (BitVec.ofBool l ++ BitVec.ofBool e) ++ BitVec.ofBool g

/-- `SetFlags(r)` (R33). -/
def State.setFlags (s : State) (r : Word) : State := s.putFlags (flagsOf r)

/-- Exactly one of L, E, G is set (R36). -/
def oneHot (f : BitVec 3) : Bool := decide (f = 0b001#3) || decide (f = 0b010#3) || decide (f = 0b100#3)

/-- The outcome of the test of `ccc` is left to a draw: `ccc` is neither 111 nor 000 and FL is not one-hot (R36, R101). -/
def condLoose (ccc : CondMask) (f : BitVec 3) : Bool :=
  !decide (ccc = 0b111#3) && !decide (ccc = 0b000#3) && !oneHot f

/-- `cond(ccc)` (R101). -/
def condHolds (ccc : CondMask) (s : State) : Bool :=
  if ccc = 0b111#3 then true
  else if ccc = 0b000#3 then false
  else if oneHot s.flags then decide (s.flags &&& ccc ≠ 0b000#3)
  else Config.looseCond s.draws

/-- Move on in the sequence of draws where the test of `ccc` takes one (R101, D9; log 13). -/
def State.afterTest (s : State) (ccc : CondMask) : State :=
  { s with draws := if condLoose ccc s.flags then s.draws + 1 else s.draws }

/-- Act only if the condition holds; otherwise the cycle ends by default (R100, R101). -/
def conditionally (ccc : CondMask) (act : State → State) (s : State) : Result :=
  .next (if condHolds ccc s then act (s.afterTest ccc) else (s.afterTest ccc).advance)

end Sys2Proof.Machine
end

