-- ==== Sys2Proof/WellFormed.lean ====
section
/-! DEFINITION. Which terms of `Instr` are instructions. Register numbers, masks and 8-bit immediates are held by their types;
the one bound left to check is that of the shift amount imm4 (30_encoding.md R79; log 27). -/

namespace Sys2Proof

/-- The shift amount of SLL and SLR in I-format fits the 4 bits the instruction has for it (R79: imm4 is `imm8[3:0]`). -/
def Instr.wellFormed : Instr → Bool
  | .sllI _ imm4 => decide (imm4 < 16)
  | .slrI _ imm4 => decide (imm4 < 16)
  | .nop => true
  | .hltR _ | .hltI _ => true
  | .movR _ _ | .movI _ _ => true
  | .rdmR _ _ | .rdmI _ _ => true
  | .wrmR _ _ | .wrmI _ _ => true
  | .rdxR _ _ => true
  | .wrxR _ _ | .wrxI _ _ => true
  | .pshR _ | .pshI _ => true
  | .popR _ | .popI _ => true
  | .mulR _ _ | .mulI _ _ => true
  | .cmpR _ _ | .cmpI _ _ => true
  | .tstR _ _ | .tstI _ _ => true
  | .jmpR _ _ | .jmpI _ _ => true
  | .calR _ _ | .calI _ _ => true
  | .retR _ | .retI _ => true
  | .addR _ _ | .addI _ _ => true
  | .subR _ _ | .subI _ _ => true
  | .notR _ _ | .notI _ _ => true
  | .andR _ _ | .andI _ _ => true
  | .orrR _ _ | .orrI _ _ => true
  | .xorR _ _ | .xorI _ _ => true
  | .sllR _ _ | .slrR _ _ => true

end Sys2Proof
end

