-- ==== Sys2Proof/Decode.lean ====
section
/-! DEFINITION. The decoder, total on any bytes and rejecting by name (30_encoding.md R92), and the encoder (R93). -/

namespace Sys2Proof

/-! ### Fields of an instruction word (R72, R73) -/

/-- Bits 15:11: zero in R-format, the opcode in I-format. -/
def topBits (w : Word) : BitVec 5 := w.extractLsb' 11 5

/-- Bits 10:8: Rd, ccc or Ed. -/
def fieldB (w : Word) : BitVec 3 := w.extractLsb' 8 3

/-- Bits 7:5: Rs or Es, R-format. -/
def fieldC (w : Word) : BitVec 3 := w.extractLsb' 5 3

/-- Bits 4:0: the opcode in R-format. -/
def lowBits (w : Word) : BitVec 5 := w.extractLsb' 0 5

/-- Bits 7:0: imm8, I-format. -/
def fieldImm8 (w : Word) : Imm8 := w.extractLsb' 0 8

/-- The 4 least significant bits of an immediate, as a number (R79). -/
def imm4Of (imm8 : Imm8) : Nat := (imm8.extractLsb' 0 4).toNat

/-! ### Register numbers (R21, R23) -/

def Reg.ofBits (b : BitVec 3) : Reg :=
  match b.toNat with
  | 0 => .r0
  | 1 => .r1
  | 2 => .r2
  | 3 => .r3
  | 4 => .r4
  | 5 => .r5
  | 6 => .r6
  | _ => .r7

def Reg.toBits : Reg → BitVec 3
  | .r0 => 0#3
  | .r1 => 1#3
  | .r2 => 2#3
  | .r3 => 3#3
  | .r4 => 4#3
  | .r5 => 5#3
  | .r6 => 6#3
  | .r7 => 7#3

def ExtReg.ofBits (b : BitVec 3) : ExtReg :=
  match b.toNat with
  | 0 => .ip
  | 1 => .sp
  | 2 => .lr
  | 3 => .e3
  | 4 => .ui
  | 5 => .fl
  | 6 => .e6
  | _ => .cf

def ExtReg.toBits : ExtReg → BitVec 3
  | .ip => 0#3
  | .sp => 1#3
  | .lr => 2#3
  | .e3 => 3#3
  | .ui => 4#3
  | .fl => 5#3
  | .e6 => 6#3
  | .cf => 7#3

/-! ### The decoder -/

/-- Why a byte sequence is no instruction. -/
inductive DecodeError where
  /-- The opcode number is blank (R81). -/
  | blankOpcode (opcode : BitVec 5)
  /-- The I-format word of opcode 0C: RDX has no immediate form (R82). -/
  | noImmediateForm
  /-- Fewer than the two bytes of an instruction (R70). -/
  | truncated
deriving DecidableEq, Repr

/-- What the decoder answers. -/
inductive Decoded where
  | instr (i : Instr)
  | rejected (why : DecodeError)
deriving DecidableEq, Repr

/-- R-format, by opcode number (R72, R75). -/
def decodeR (opcode : BitVec 5) (b c : BitVec 3) : Decoded :=
  match opcode.toNat with
  | 0x00 => .instr .nop
  | 0x01 => .instr (.hltR b)
  | 0x05 => .instr (.movR (.ofBits b) (.ofBits c))
  | 0x06 => .instr (.rdmR (.ofBits b) (.ofBits c))
  | 0x07 => .instr (.wrmR (.ofBits b) (.ofBits c))
  | 0x0C => .instr (.rdxR (.ofBits b) (.ofBits c))
  | 0x0D => .instr (.wrxR (.ofBits b) (.ofBits c))
  | 0x0E => .instr (.pshR (.ofBits b))
  | 0x0F => .instr (.popR (.ofBits b))
  | 0x10 => .instr (.mulR (.ofBits b) (.ofBits c))
  | 0x11 => .instr (.cmpR (.ofBits b) (.ofBits c))
  | 0x13 => .instr (.tstR (.ofBits b) (.ofBits c))
  | 0x14 => .instr (.jmpR b (.ofBits c))
  | 0x15 => .instr (.calR b (.ofBits c))
  | 0x16 => .instr (.retR b)
  | 0x18 => .instr (.addR (.ofBits b) (.ofBits c))
  | 0x19 => .instr (.subR (.ofBits b) (.ofBits c))
  | 0x1A => .instr (.notR (.ofBits b) (.ofBits c))
  | 0x1B => .instr (.andR (.ofBits b) (.ofBits c))
  | 0x1C => .instr (.orrR (.ofBits b) (.ofBits c))
  | 0x1D => .instr (.xorR (.ofBits b) (.ofBits c))
  | 0x1E => .instr (.sllR (.ofBits b) (.ofBits c))
  | 0x1F => .instr (.slrR (.ofBits b) (.ofBits c))
  | _ => .rejected (.blankOpcode opcode)

/-- I-format, by opcode number, which is not 0 (R73, R74, R75). -/
def decodeI (opcode : BitVec 5) (b : BitVec 3) (imm8 : Imm8) : Decoded :=
  match opcode.toNat with
  | 0x01 => .instr (.hltI b)
  | 0x05 => .instr (.movI (.ofBits b) imm8)
  | 0x06 => .instr (.rdmI (.ofBits b) imm8)
  | 0x07 => .instr (.wrmI (.ofBits b) imm8)
  | 0x0C => .rejected .noImmediateForm
  | 0x0D => .instr (.wrxI (.ofBits b) imm8)
  | 0x0E => .instr (.pshI (.ofBits b))
  | 0x0F => .instr (.popI (.ofBits b))
  | 0x10 => .instr (.mulI (.ofBits b) imm8)
  | 0x11 => .instr (.cmpI (.ofBits b) imm8)
  | 0x13 => .instr (.tstI (.ofBits b) imm8)
  | 0x14 => .instr (.jmpI b imm8)
  | 0x15 => .instr (.calI b imm8)
  | 0x16 => .instr (.retI b)
  | 0x18 => .instr (.addI (.ofBits b) imm8)
  | 0x19 => .instr (.subI (.ofBits b) imm8)
  | 0x1A => .instr (.notI (.ofBits b) imm8)
  | 0x1B => .instr (.andI (.ofBits b) imm8)
  | 0x1C => .instr (.orrI (.ofBits b) imm8)
  | 0x1D => .instr (.xorI (.ofBits b) imm8)
  | 0x1E => .instr (.sllI (.ofBits b) (imm4Of imm8))
  | 0x1F => .instr (.slrI (.ofBits b) (imm4Of imm8))
  | _ => .rejected (.blankOpcode opcode)

/-- R92. Bits 15:11 all zero is R-format, anything else I-format (R74). -/
def decode (w : Word) : Decoded :=
  if topBits w = 0#5 then decodeR (lowBits w) (fieldB w) (fieldC w)
  else decodeI (topBits w) (fieldB w) (fieldImm8 w)

/-- The decoder on a sequence of bytes: one instruction is two bytes, the high byte first (R52, R70). -/
def decodeBytes : List Byte → Decoded
  | hi :: lo :: _ => decode (Word.ofBytes hi lo)
  | _ => .rejected .truncated

/-! ### The encoder -/

/-- `EncodeR` (R93): bits 15:11 are 0. -/
def encodeR (opcode : BitVec 5) (b c : BitVec 3) : Word := (0#5 ++ b) ++ (c ++ opcode)

/-- `EncodeI` (R93). -/
def encodeI (opcode : BitVec 5) (b : BitVec 3) (imm8 : Imm8) : Word := (opcode ++ b) ++ imm8

/-- The canonical word of an instruction: unused fields are 0 (R80, R93). -/
def encode : Instr → Word
  | .nop => encodeR 0x00#5 0#3 0#3
  | .hltR ccc => encodeR 0x01#5 ccc 0#3
  | .hltI ccc => encodeI 0x01#5 ccc 0#8
  | .movR rd rs => encodeR 0x05#5 rd.toBits rs.toBits
  | .movI rd imm8 => encodeI 0x05#5 rd.toBits imm8
  | .rdmR rd rs => encodeR 0x06#5 rd.toBits rs.toBits
  | .rdmI rd imm8 => encodeI 0x06#5 rd.toBits imm8
  | .wrmR rd rs => encodeR 0x07#5 rd.toBits rs.toBits
  | .wrmI rd imm8 => encodeI 0x07#5 rd.toBits imm8
  | .rdxR rd es => encodeR 0x0C#5 rd.toBits es.toBits
  | .wrxR ed rs => encodeR 0x0D#5 ed.toBits rs.toBits
  | .wrxI ed imm8 => encodeI 0x0D#5 ed.toBits imm8
  | .pshR rd => encodeR 0x0E#5 rd.toBits 0#3
  | .pshI rd => encodeI 0x0E#5 rd.toBits 0#8
  | .popR rd => encodeR 0x0F#5 rd.toBits 0#3
  | .popI rd => encodeI 0x0F#5 rd.toBits 0#8
  | .mulR rd rs => encodeR 0x10#5 rd.toBits rs.toBits
  | .mulI rd imm8 => encodeI 0x10#5 rd.toBits imm8
  | .cmpR rd rs => encodeR 0x11#5 rd.toBits rs.toBits
  | .cmpI rd imm8 => encodeI 0x11#5 rd.toBits imm8
  | .tstR rd rs => encodeR 0x13#5 rd.toBits rs.toBits
  | .tstI rd imm8 => encodeI 0x13#5 rd.toBits imm8
  | .jmpR ccc rs => encodeR 0x14#5 ccc rs.toBits
  | .jmpI ccc imm8 => encodeI 0x14#5 ccc imm8
  | .calR ccc rs => encodeR 0x15#5 ccc rs.toBits
  | .calI ccc imm8 => encodeI 0x15#5 ccc imm8
  | .retR ccc => encodeR 0x16#5 ccc 0#3
  | .retI ccc => encodeI 0x16#5 ccc 0#8
  | .addR rd rs => encodeR 0x18#5 rd.toBits rs.toBits
  | .addI rd imm8 => encodeI 0x18#5 rd.toBits imm8
  | .subR rd rs => encodeR 0x19#5 rd.toBits rs.toBits
  | .subI rd imm8 => encodeI 0x19#5 rd.toBits imm8
  | .notR rd rs => encodeR 0x1A#5 rd.toBits rs.toBits
  | .notI rd imm8 => encodeI 0x1A#5 rd.toBits imm8
  | .andR rd rs => encodeR 0x1B#5 rd.toBits rs.toBits
  | .andI rd imm8 => encodeI 0x1B#5 rd.toBits imm8
  | .orrR rd rs => encodeR 0x1C#5 rd.toBits rs.toBits
  | .orrI rd imm8 => encodeI 0x1C#5 rd.toBits imm8
  | .xorR rd rs => encodeR 0x1D#5 rd.toBits rs.toBits
  | .xorI rd imm8 => encodeI 0x1D#5 rd.toBits imm8
  | .sllR rd rs => encodeR 0x1E#5 rd.toBits rs.toBits
  | .sllI rd imm4 => encodeI 0x1E#5 rd.toBits (BitVec.ofNat 8 imm4)
  | .slrR rd rs => encodeR 0x1F#5 rd.toBits rs.toBits
  | .slrI rd imm4 => encodeI 0x1F#5 rd.toBits (BitVec.ofNat 8 imm4)

/-! ### The host's reading of the opcode table -/

/-- The instruction word whose bits are `w`, the bits at and above `nbits` zero. -/
def tableWord (nbits w : Nat) : Word := BitVec.ofNat 16 (w % 2 ^ nbits)

/-- The instruction that the decoder reads from a word numbered as spec/opcode_table.json numbers it, laid out as the
hardware stores it: high byte first (R52). -/
def decodeTableWord (nbits w : Nat) : Option Instr :=
  let word := tableWord nbits w
  match decodeBytes [word.hiByte, word.loByte] with
  | .instr i => some i
  | .rejected _ => none

end Sys2Proof
end

