-- ==== Sys2Proof/Machine/Operands.lean ====
section
/-! DEFINITION. The operand forms: the second operand (41_data_movement.md R110, 30_encoding.md R78), the shift amount (R79), and
the external registers as operands of RDX and WRX (R114, R115). -/

namespace Sys2Proof.Machine

/-- `op2` in R-format: `x[C]` (R110). UI plays no part. -/
def regOperand (rs : Reg) (s : State) : Word := s.reg rs

/-- `op2` in I-format: `imm16 = (UI[7:0] << 8) | imm8`, never sign-extended (R78, R110). -/
def immOperand (imm8 : Imm8) (s : State) : Word := Word.ofBytes s.ui.loByte imm8

/-- The shift amount in R-format: `x[C][3:0]` (R79). -/
def regAmount (rs : Reg) (s : State) : Nat := ((s.reg rs).extractLsb' 0 4).toNat

/-- The shift amount in I-format: the low 4 bits, without UI (R79; log 27). -/
def immAmount (imm4 : Nat) : Nat := imm4 % 16

/-- `E[k]` as RDX reads it (R114): UI as the previous instruction left it, IP already past this one, FL's bits 15:3 as 0. -/
def readExt (es : ExtReg) (s : State) : Except Fault Word :=
  match es with
  | .ip => .ok s.ipIn
  | .sp => .ok s.sp
  | .lr => .ok s.lr
  | .ui => .ok s.ui
  | .fl => .ok ((s.fl.extractLsb' 0 3).zeroExtend 16)
  | .cf => .ok s.cf
  | .e3 => .error (.reservedExternalRegister ExtReg.e3.toBits)
  | .e6 => .error (.reservedExternalRegister ExtReg.e6.toBits)

/-- `E[k] <- v` as WRX writes it, with the end of the cycle (R115, R100): a written IP is not incremented, a written UI is not
cleared, FL takes bits 2:0 only, CF ignores the write (R37). -/
def writeExt (ed : ExtReg) (v : Word) (s : State) : Except Fault State :=
  match ed with
  | .ip => .ok (s.jumpTo v)
  | .sp => .ok { s.advance with sp := v }
  | .lr => .ok { s.advance with lr := v }
  | .ui => .ok (s.endCycle s.ipIn v)
  | .fl => .ok { s.advance with fl := s.fl.extractLsb' 3 13 ++ v.extractLsb' 0 3 }
  | .cf => .ok s.advance
  | .e3 => .error (.reservedExternalRegister ExtReg.e3.toBits)
  | .e6 => .error (.reservedExternalRegister ExtReg.e6.toBits)

end Sys2Proof.Machine
end

