-- ==== Sys2Proof/Machine/Alu.lean ====
section
/-! DEFINITION. MUL, CMP, TST (42_mul_cmp_tst.md R120 to R122) and ADD, SUB, NOT, AND, ORR, XOR, SLL, SLR
(44_alu_logic_shift.md R130 to R138). All arithmetic is modulo 65536 (R138; log 10). -/

namespace Sys2Proof.Machine

/-- `x[Rd] <- r; SetFlags(r)`, the end of every instruction of this file that writes Rd. -/
def writeResult (rd : Reg) (r : Word) (s : State) : Result := .next ((s.setReg rd r).setFlags r).advance

/-- `SetFlags(r)` without a destination: CMP and TST. -/
def onlyFlags (r : Word) (s : State) : Result := .next (s.setFlags r).advance

/-! ### MUL (R120) -/

/-- `CF_M`: MUL is implemented (10_state.md R38). -/
def State.hasMul (s : State) : Bool := s.cf.getLsbD 0

/-- The low 16 bits of the unsigned product. -/
def product (a b : Word) : Word := BitVec.ofNat 16 (a.toNat * b.toNat)

/-- Multiply where the machine has MUL, else `FeatureAbsent` with the instruction bits (R120, R151; logs 15, 26). -/
def multiply (rd : Reg) (v : Word) (i : Instr) (s : State) : Result :=
  if s.hasMul then writeResult rd (product (s.reg rd) v) s else raise (.featureAbsent (encode i))

def execMulR (rd rs : Reg) (s : State) : Result := multiply rd (regOperand rs s) (.mulR rd rs) s

def execMulI (rd : Reg) (imm8 : Imm8) (s : State) : Result := multiply rd (immOperand imm8 s) (.mulI rd imm8) s

/-! ### CMP (R121): the flags of the wrapped difference (D7; log 11) -/

def execCmpR (rd rs : Reg) (s : State) : Result := onlyFlags (s.reg rd - regOperand rs s) s

def execCmpI (rd : Reg) (imm8 : Imm8) (s : State) : Result := onlyFlags (s.reg rd - immOperand imm8 s) s

/-! ### TST (R122) -/

def execTstR (rd rs : Reg) (s : State) : Result := onlyFlags (s.reg rd &&& regOperand rs s) s

def execTstI (rd : Reg) (imm8 : Imm8) (s : State) : Result := onlyFlags (s.reg rd &&& immOperand imm8 s) s

/-! ### ADD (R130) and SUB (R131) -/

def execAddR (rd rs : Reg) (s : State) : Result := writeResult rd (s.reg rd + regOperand rs s) s

def execAddI (rd : Reg) (imm8 : Imm8) (s : State) : Result := writeResult rd (s.reg rd + immOperand imm8 s) s

def execSubR (rd rs : Reg) (s : State) : Result := writeResult rd (s.reg rd - regOperand rs s) s

def execSubI (rd : Reg) (imm8 : Imm8) (s : State) : Result := writeResult rd (s.reg rd - immOperand imm8 s) s

/-! ### NOT (R132): of the second operand alone -/

def execNotR (rd rs : Reg) (s : State) : Result := writeResult rd (~~~ regOperand rs s) s

def execNotI (rd : Reg) (imm8 : Imm8) (s : State) : Result := writeResult rd (~~~ immOperand imm8 s) s

/-! ### AND (R133), ORR (R134), XOR (R135) -/

def execAndR (rd rs : Reg) (s : State) : Result := writeResult rd (s.reg rd &&& regOperand rs s) s

def execAndI (rd : Reg) (imm8 : Imm8) (s : State) : Result := writeResult rd (s.reg rd &&& immOperand imm8 s) s

def execOrrR (rd rs : Reg) (s : State) : Result := writeResult rd (s.reg rd ||| regOperand rs s) s

def execOrrI (rd : Reg) (imm8 : Imm8) (s : State) : Result := writeResult rd (s.reg rd ||| immOperand imm8 s) s

def execXorR (rd rs : Reg) (s : State) : Result := writeResult rd (s.reg rd ^^^ regOperand rs s) s

def execXorI (rd : Reg) (imm8 : Imm8) (s : State) : Result := writeResult rd (s.reg rd ^^^ immOperand imm8 s) s

/-! ### SLL (R136) and SLR (R137): logical shifts by 0 to 15, which write the flags (D8; log 12) -/

def execSllR (rd rs : Reg) (s : State) : Result := writeResult rd (s.reg rd <<< regAmount rs s) s

def execSllI (rd : Reg) (imm4 : Nat) (s : State) : Result := writeResult rd (s.reg rd <<< immAmount imm4) s

def execSlrR (rd rs : Reg) (s : State) : Result := writeResult rd (s.reg rd >>> regAmount rs s) s

def execSlrI (rd : Reg) (imm4 : Nat) (s : State) : Result := writeResult rd (s.reg rd >>> immAmount imm4) s

end Sys2Proof.Machine
end

