-- ==== Sys2Proof/Machine/Control.lean ====
section
/-! DEFINITION. JMP, CAL, RET (43_control_transfer.md R125 to R128). A target is an absolute instruction index. -/

namespace Sys2Proof.Machine

/-- `if cond(ccc): IP <- target` (R125). -/
def jump (ccc : CondMask) (target : Word) (s : State) : Result := conditionally ccc (fun t => t.jumpTo target) s

def execJmpR (ccc : CondMask) (rs : Reg) (s : State) : Result := jump ccc (regOperand rs s) s

def execJmpI (ccc : CondMask) (imm8 : Imm8) (s : State) : Result := jump ccc (immOperand imm8 s) s

/-- `if cond(ccc): LR <- ip_in; IP <- target` (R126). -/
def call (ccc : CondMask) (target : Word) (s : State) : Result :=
  conditionally ccc (fun t => { t.jumpTo target with lr := t.ipIn }) s

def execCalR (ccc : CondMask) (rs : Reg) (s : State) : Result := call ccc (regOperand rs s) s

def execCalI (ccc : CondMask) (imm8 : Imm8) (s : State) : Result := call ccc (immOperand imm8 s) s

/-- `if cond(ccc): IP <- LR` (R127). -/
def ret (ccc : CondMask) (s : State) : Result := conditionally ccc (fun t => t.jumpTo t.lr) s

def execRetR (ccc : CondMask) (s : State) : Result := ret ccc s

/-- "The two formats behave the same" (R127). -/
def execRetI (ccc : CondMask) (s : State) : Result := ret ccc s

end Sys2Proof.Machine
end

