-- ==== Sys2Proof/Machine/DataMove.lean ====
section
/-! DEFINITION. MOV, RDM, WRM, RDX, WRX, PSH, POP (41_data_movement.md R111 to R117). None writes FL but WRX to FL. -/

namespace Sys2Proof.Machine

/-- `x[Rd] <- v` and the default end of the cycle. -/
def load (rd : Reg) (v : Word) (s : State) : State := (s.setReg rd v).advance

/-! ### MOV (R111) -/

def execMovR (rd rs : Reg) (s : State) : Result := .next (load rd (regOperand rs s) s)

def execMovI (rd : Reg) (imm8 : Imm8) (s : State) : Result := .next (load rd (immOperand imm8 s) s)

/-! ### RDM (R112) -/

/-- `x[Rd] <- MemRead(addr, 2)`. -/
def readMemory (rd : Reg) (addr : Word) (s : State) : Result := orRaise (memRead addr s) fun v => load rd v s

def execRdmR (rd rs : Reg) (s : State) : Result := readMemory rd (regOperand rs s) s

def execRdmI (rd : Reg) (imm8 : Imm8) (s : State) : Result := readMemory rd (immOperand imm8 s) s

/-! ### WRM (R113) -/

/-- `MemWrite(addr, 2, x[Rd])`. -/
def writeMemory (rd : Reg) (addr : Word) (s : State) : Result := orRaise (memWrite addr (s.reg rd) s) State.advance

def execWrmR (rd rs : Reg) (s : State) : Result := writeMemory rd (regOperand rs s) s

def execWrmI (rd : Reg) (imm8 : Imm8) (s : State) : Result := writeMemory rd (immOperand imm8 s) s

/-! ### RDX (R114) and WRX (R115) -/

def execRdxR (rd : Reg) (es : ExtReg) (s : State) : Result := orRaise (readExt es s) fun v => load rd v s

def execWrxR (ed : ExtReg) (rs : Reg) (s : State) : Result := orRaise (writeExt ed (regOperand rs s) s) id

def execWrxI (ed : ExtReg) (imm8 : Imm8) (s : State) : Result := orRaise (writeExt ed (immOperand imm8 s) s) id

/-! ### PSH (R116) and POP (R117): the two formats behave the same -/

/-- Store at SP - 2, then SP takes that address. -/
def push (rd : Reg) (s : State) : Result :=
  orRaise (memWrite s.pushAddr (s.reg rd) s) fun t => { t.advance with sp := s.pushAddr }

def execPshR (rd : Reg) (s : State) : Result := push rd s

def execPshI (rd : Reg) (s : State) : Result := push rd s

/-- Load from SP, then SP + 2. -/
def pop (rd : Reg) (s : State) : Result :=
  orRaise (memRead s.sp s) fun v => { load rd v s with sp := s.popSp }

def execPopR (rd : Reg) (s : State) : Result := pop rd s

def execPopI (rd : Reg) (s : State) : Result := pop rd s

end Sys2Proof.Machine
end

