-- ==== Sys2Proof/Machine/NopHlt.lean ====
section
/-! DEFINITION. NOP and HLT (40_cycle_nop_hlt.md R102, R103). -/

namespace Sys2Proof.Machine

/-- R102: nothing but the frame of the cycle. -/
def execNop (s : State) : Result := .next s.advance

/-- R103: the halting instruction completes its cycle (D22; log 22). -/
def halt (ccc : CondMask) (s : State) : Result :=
  conditionally ccc (fun t => { t.advance with halted := true }) s

def execHltR (ccc : CondMask) (s : State) : Result := halt ccc s

/-- "The two formats behave the same" (R103). -/
def execHltI (ccc : CondMask) (s : State) : Result := halt ccc s

end Sys2Proof.Machine
end

