-- ==== Sys2Proof/Machine/Dispatch.lean ====
section
/-! DEFINITION. The meaning of each instruction, by constructor; `s` is the state before the step, IP the index of `i`. -/

namespace Sys2Proof.Machine

def exec (i : Instr) (s : State) : Host.Outcome State Fault Refusal :=
  match i with
  | .nop => Sys2Proof.Machine.execNop s
  | .hltR ccc => Sys2Proof.Machine.execHltR ccc s
  | .hltI ccc => Sys2Proof.Machine.execHltI ccc s
  | .movR rd rs => Sys2Proof.Machine.execMovR rd rs s
  | .movI rd imm8 => Sys2Proof.Machine.execMovI rd imm8 s
  | .rdmR rd rs => Sys2Proof.Machine.execRdmR rd rs s
  | .rdmI rd imm8 => Sys2Proof.Machine.execRdmI rd imm8 s
  | .wrmR rd rs => Sys2Proof.Machine.execWrmR rd rs s
  | .wrmI rd imm8 => Sys2Proof.Machine.execWrmI rd imm8 s
  | .rdxR rd es => Sys2Proof.Machine.execRdxR rd es s
  | .wrxR ed rs => Sys2Proof.Machine.execWrxR ed rs s
  | .wrxI ed imm8 => Sys2Proof.Machine.execWrxI ed imm8 s
  | .pshR rd => Sys2Proof.Machine.execPshR rd s
  | .pshI rd => Sys2Proof.Machine.execPshI rd s
  | .popR rd => Sys2Proof.Machine.execPopR rd s
  | .popI rd => Sys2Proof.Machine.execPopI rd s
  | .mulR rd rs => Sys2Proof.Machine.execMulR rd rs s
  | .mulI rd imm8 => Sys2Proof.Machine.execMulI rd imm8 s
  | .cmpR rd rs => Sys2Proof.Machine.execCmpR rd rs s
  | .cmpI rd imm8 => Sys2Proof.Machine.execCmpI rd imm8 s
  | .tstR rd rs => Sys2Proof.Machine.execTstR rd rs s
  | .tstI rd imm8 => Sys2Proof.Machine.execTstI rd imm8 s
  | .jmpR ccc rs => Sys2Proof.Machine.execJmpR ccc rs s
  | .jmpI ccc imm8 => Sys2Proof.Machine.execJmpI ccc imm8 s
  | .calR ccc rs => Sys2Proof.Machine.execCalR ccc rs s
  | .calI ccc imm8 => Sys2Proof.Machine.execCalI ccc imm8 s
  | .retR ccc => Sys2Proof.Machine.execRetR ccc s
  | .retI ccc => Sys2Proof.Machine.execRetI ccc s
  | .addR rd rs => Sys2Proof.Machine.execAddR rd rs s
  | .addI rd imm8 => Sys2Proof.Machine.execAddI rd imm8 s
  | .subR rd rs => Sys2Proof.Machine.execSubR rd rs s
  | .subI rd imm8 => Sys2Proof.Machine.execSubI rd imm8 s
  | .notR rd rs => Sys2Proof.Machine.execNotR rd rs s
  | .notI rd imm8 => Sys2Proof.Machine.execNotI rd imm8 s
  | .andR rd rs => Sys2Proof.Machine.execAndR rd rs s
  | .andI rd imm8 => Sys2Proof.Machine.execAndI rd imm8 s
  | .orrR rd rs => Sys2Proof.Machine.execOrrR rd rs s
  | .orrI rd imm8 => Sys2Proof.Machine.execOrrI rd imm8 s
  | .xorR rd rs => Sys2Proof.Machine.execXorR rd rs s
  | .xorI rd imm8 => Sys2Proof.Machine.execXorI rd imm8 s
  | .sllR rd rs => Sys2Proof.Machine.execSllR rd rs s
  | .sllI rd imm4 => Sys2Proof.Machine.execSllI rd imm4 s
  | .slrR rd rs => Sys2Proof.Machine.execSlrR rd rs s
  | .slrI rd imm4 => Sys2Proof.Machine.execSlrI rd imm4 s

end Sys2Proof.Machine
end

