-- ==== Sys2Proof/Machine/Fetch.lean ====
section
/-! DEFINITION. Fetching and decoding the instruction at IP (20_memory.md R56; 60_exceptions.md R152), and placing one there. -/

namespace Sys2Proof.Machine

/-- The byte address `k << 1` of the instruction at index k (10_state.md R25). -/
def fetchAddr (ip : Word) : Nat := 2 * ip.toNat

/-- `Fetch()` (R56): an index whose address does not fit 16 bits faults (D3; log 7). -/
def fetch (s : State) : Except Fault Word :=
  if s.ip.toNat < 0x8000 then .ok (s.mem.readWord (fetchAddr s.ip)) else .error (.fetchOutOfRange s.ip)

/-- Fetch, then decode (R100), in the order of R152. -/
def fetchInstr (s : State) : Except Fault Instr :=
  match fetch s with
  | .error f => .error f
  | .ok bits =>
    match decode bits with
    | .instr i => .ok i
    | .rejected _ => .error (.reservedInstruction bits)

/-- A machine that will fetch `word` next: the word lies at the instruction address of IP, IP is an index that can be fetched and
the processor is not halted (both as they are after reset; log 25). -/
def placeAtIp (s : State) (word : Word) : State :=
  let ip := s.ip &&& 0x7FFF#16
  { s with halted := false, ip := ip, mem := s.mem.writeWord (fetchAddr ip) word }

end Sys2Proof.Machine
end

