-- ==== Sys2Proof/Machine/Step.lean ====
section
/-! DEFINITION. One step of the machine (40_cycle_nop_hlt.md R100). -/

namespace Sys2Proof.Machine

/-- `Step()` (R100). While `halted` is set nothing is executed and the state stays as it is (10_state.md R40; log 24). -/
def step (s : State) : Host.Outcome State Fault Refusal :=
  if s.halted then .next s
  else
    match fetchInstr s with
    | .error f => raise f
    | .ok i => exec i s

/-- The state whose next step fetches the opcode-table word `w` and runs it (log 25). -/
def State.withFetchWord (s : State) (nbits w : Nat) : State := placeAtIp s (tableWord nbits w)

end Sys2Proof.Machine
end

