-- ==== Sys2Proof/Safety.lean ====
section
/-! DEFINITION. What counts as a legal state, and the terms in which statements are made: effects and frames, written from the spec
apart from the meanings they are about. -/

namespace Sys2Proof.Machine

/-! ### Legal states -/

/-- FL[15:3] reads as drawn by the spec (10_state.md R35). -/
abbrev State.flReserved (s : State) : Prop := s.fl.toNat < 8

/-- CF is the constant of an implementation with or without MUL (10_state.md R38). -/
abbrev State.cfLegal (s : State) : Prop := s.cf = 0x0000#16 ∨ s.cf = 0x0001#16

/-- The invariant of the machine: memory is in its canonical form and the reserved bits of FL and CF read as the spec says. -/
abbrev State.Inv (s : State) : Prop := s.mem.wf = true ∧ s.flReserved ∧ s.cfLegal

/-! ### Words and immediates as numbers -/

/-- `EncodeR` as a number (30_encoding.md R93). -/
def wordR (opcode : Nat) (b c : BitVec 3) : Word := BitVec.ofNat 16 (b.toNat * 0x100 + c.toNat * 0x20 + opcode)

/-- `EncodeI` as a number (30_encoding.md R93). -/
def wordI (opcode : Nat) (b : BitVec 3) (imm8 : Imm8) : Word := BitVec.ofNat 16 (opcode * 0x800 + b.toNat * 0x100 + imm8.toNat)

/-- imm16 as a number: UI[7:0] is the high byte (30_encoding.md R78). -/
def imm16 (imm8 : Imm8) (s : State) : Word := BitVec.ofNat 16 ((s.ui.toNat % 0x100) * 0x100 + imm8.toNat)

/-- The 16-bit value that memory holds at an even address, high byte first (20_memory.md R52). -/
def wordAt (s : State) (a : Nat) : Word :=
  BitVec.ofNat 16 ((s.mem.readByte a).toNat * 0x100 + (s.mem.readByte (a + 1)).toNat)

/-- The bits of a word that its instruction does not use (30_encoding.md R79, R80): the x of opcode_table.json. -/
def ignoredBits (w : Word) : Word :=
  match w.toNat / 0x800, w.toNat % 0x20 with
  | 0, 0x00 => 0x07E0#16
  | 0, 0x01 | 0, 0x0E | 0, 0x0F | 0, 0x16 => 0x00E0#16
  | 0, _ => 0x0000#16
  | 0x01, _ | 0x0E, _ | 0x0F, _ | 0x16, _ => 0x00FF#16
  | 0x1E, _ | 0x1F, _ => 0x00F0#16
  | _, _ => 0x0000#16

/-- The blank opcode numbers (30_encoding.md R81). -/
def blankOpcodes : List Nat := [0x02, 0x03, 0x04, 0x08, 0x09, 0x0A, 0x0B, 0x12, 0x17]

/-- The reserved words (30_encoding.md R82). -/
abbrev reservedWord (w : Word) : Prop :=
  (w.toNat / 0x800 = 0 ∧ w.toNat % 0x20 ∈ blankOpcodes) ∨ w.toNat / 0x800 ∈ 0x0C :: blankOpcodes

/-- The mask of a table row selects exactly the words that decode to the row's constructor. -/
def RowIs (mask pattern : Word) (row : Instr → Bool) : Prop :=
  ∀ w : Word, w &&& mask = pattern ↔ ∃ i, decode w = .instr i ∧ row i = true

/-! ### What stays the same -/

def SameRegs (s t : State) : Prop := ∀ r, t.reg r = s.reg r

def SameRegsBut (d : Reg) (s t : State) : Prop := ∀ r, r ≠ d → t.reg r = s.reg r

/-- Every byte of memory reads as before. -/
def SameMem (s t : State) : Prop := ∀ b, t.mem.readByte b = s.mem.readByte b

/-- Every byte outside the two at `a` and `a + 1` reads as before. -/
def SameMemOutside (a : Word) (s t : State) : Prop :=
  ∀ b, b ≠ a.toNat → b ≠ a.toNat + 1 → t.mem.readByte b = s.mem.readByte b

/-- The default end of a cycle: IP one higher modulo 65536, UI zero (40_cycle_nop_hlt.md R100). -/
def Sequential (s t : State) : Prop := t.ip.toNat = (s.ip.toNat + 1) % 65536 ∧ t.ui = 0#16

/-- LR, CF, `halted` and the place in the sequence of draws. -/
def SameRest (s t : State) : Prop := t.lr = s.lr ∧ t.cf = s.cf ∧ t.halted = s.halted ∧ t.draws = s.draws

/-! ### Effects -/

/-- FL after `SetFlags(r)` (10_state.md R33). -/
def FlagsShow (r : Word) (s t : State) : Prop :=
  t.fl.toNat % 8 = (if r.toNat = 0 then 0b010 else if r.toNat < 0x8000 then 0b001 else 0b100) ∧
    t.fl.toNat / 8 = s.fl.toNat / 8

/-- `x[Rd] <- r` and nothing else but the end of the cycle. -/
def MoveEffect (rd : Reg) (r : Word) (s t : State) : Prop :=
  t.reg rd = r ∧ SameRegsBut rd s t ∧ t.fl = s.fl ∧ t.sp = s.sp ∧ Sequential s t ∧ SameRest s t ∧ SameMem s t

/-- `x[Rd] <- r; SetFlags(r)` and nothing else but the end of the cycle. -/
def AluEffect (rd : Reg) (r : Word) (s t : State) : Prop :=
  t.reg rd = r ∧ SameRegsBut rd s t ∧ FlagsShow r s t ∧ t.sp = s.sp ∧ Sequential s t ∧ SameRest s t ∧ SameMem s t

/-- `SetFlags(r)` and nothing else but the end of the cycle. -/
def FlagsEffect (r : Word) (s t : State) : Prop :=
  SameRegs s t ∧ FlagsShow r s t ∧ t.sp = s.sp ∧ Sequential s t ∧ SameRest s t ∧ SameMem s t

/-- `v` stored at `a`, high byte first, with SP then holding `sp`, and nothing else but the end of the cycle. -/
def StoreEffect (a v sp : Word) (s t : State) : Prop :=
  (t.mem.readByte a.toNat).toNat = v.toNat / 0x100 ∧ (t.mem.readByte (a.toNat + 1)).toNat = v.toNat % 0x100 ∧
    SameMemOutside a s t ∧ t.sp = sp ∧ SameRegs s t ∧ t.fl = s.fl ∧ Sequential s t ∧ SameRest s t

/-- `E[k] <- v` (41_data_movement.md R115), for a number that carries a register. -/
def ExtWriteEffect (ed : ExtReg) (v : Word) (s t : State) : Prop :=
  t.ip.toNat = (if ed = .ip then v.toNat else (s.ip.toNat + 1) % 65536) ∧
    t.sp = (if ed = .sp then v else s.sp) ∧
    t.lr = (if ed = .lr then v else s.lr) ∧
    t.ui = (if ed = .ui then v else 0#16) ∧
    t.fl.toNat % 8 = (if ed = .fl then v.toNat % 8 else s.fl.toNat % 8) ∧
    t.fl.toNat / 8 = s.fl.toNat / 8 ∧
    t.cf = s.cf ∧ SameRegs s t ∧ SameMem s t ∧ t.halted = s.halted ∧ t.draws = s.draws

/-- What RDX reads from a number that carries a register (41_data_movement.md R114). -/
def extValue (es : ExtReg) (s : State) : Word :=
  match es with
  | .ip => BitVec.ofNat 16 (s.ip.toNat + 1)
  | .sp => s.sp
  | .lr => s.lr
  | .ui => s.ui
  | .fl => BitVec.ofNat 16 (s.fl.toNat % 8)
  | .cf => s.cf
  | .e3 | .e6 => 0#16

/-- At `s`, every I-format instruction with an imm16 does with `imm8` what its R-format does with a register that holds `v`: all
instructions with both forms but SLL and SLR (30_encoding.md R78), MUL where it is present, since its fault records the bits. -/
def ImmediateActsAs (v : Nat) (imm8 : Imm8) (s : State) : Prop :=
  ∀ (rd rs : Reg) (ed : ExtReg) (ccc : CondMask), (s.reg rs).toNat = v →
    exec (.movI rd imm8) s = exec (.movR rd rs) s ∧ exec (.rdmI rd imm8) s = exec (.rdmR rd rs) s ∧
    exec (.wrmI rd imm8) s = exec (.wrmR rd rs) s ∧ exec (.wrxI ed imm8) s = exec (.wrxR ed rs) s ∧
    (s.cf.toNat % 2 = 1 → exec (.mulI rd imm8) s = exec (.mulR rd rs) s) ∧
    exec (.cmpI rd imm8) s = exec (.cmpR rd rs) s ∧ exec (.tstI rd imm8) s = exec (.tstR rd rs) s ∧
    exec (.jmpI ccc imm8) s = exec (.jmpR ccc rs) s ∧ exec (.calI ccc imm8) s = exec (.calR ccc rs) s ∧
    exec (.addI rd imm8) s = exec (.addR rd rs) s ∧ exec (.subI rd imm8) s = exec (.subR rd rs) s ∧
    exec (.notI rd imm8) s = exec (.notR rd rs) s ∧ exec (.andI rd imm8) s = exec (.andR rd rs) s ∧
    exec (.orrI rd imm8) s = exec (.orrR rd rs) s ∧ exec (.xorI rd imm8) s = exec (.xorR rd rs) s

/-- External register numbers 3 and 6 carry no register (10_state.md R39). -/
abbrev CarriesNoRegister (e : ExtReg) : Prop := e = .e3 ∨ e = .e6

/-! ### The condition test (40_cycle_nop_hlt.md R101) -/

/-- Exactly one of L, E, G is set. -/
abbrev FlagsOneHot (s : State) : Prop := s.fl.toNat % 8 = 0b001 ∨ s.fl.toNat % 8 = 0b010 ∨ s.fl.toNat % 8 = 0b100

/-- `b` is an outcome the test of `ccc` may have: fixed for 111 and 000, `FL & ccc` on one-hot flags, the model's next free value
otherwise. -/
def TestOutcome (ccc : CondMask) (s : State) (b : Bool) : Prop :=
  (ccc = 0b111#3 → b = true) ∧ (ccc = 0b000#3 → b = false) ∧
    (ccc ≠ 0b111#3 → ccc ≠ 0b000#3 → FlagsOneHot s → (b = true ↔ ∃ k, k < 3 ∧ s.fl.getLsbD k = true ∧ ccc.getLsbD k = true)) ∧
    (ccc ≠ 0b111#3 → ccc ≠ 0b000#3 → ¬ FlagsOneHot s → b = Config.looseCond s.draws)

/-- The sequence of draws moves on by one exactly where the outcome is a draw. -/
def DrawsAfter (ccc : CondMask) (s t : State) : Prop :=
  (ccc = 0b111#3 ∨ ccc = 0b000#3 ∨ FlagsOneHot s → t.draws = s.draws) ∧
    (ccc ≠ 0b111#3 → ccc ≠ 0b000#3 → ¬ FlagsOneHot s → t.draws = s.draws + 1)

/-- What no conditional instruction changes: general registers, memory, FL, SP, CF; and its draw. -/
def CondFrame (ccc : CondMask) (s t : State) : Prop :=
  SameRegs s t ∧ SameMem s t ∧ t.fl = s.fl ∧ t.sp = s.sp ∧ t.cf = s.cf ∧ t.ui = 0#16 ∧ DrawsAfter ccc s t

/-- IP after a conditional transfer to `target`. -/
def TransferIp (b : Bool) (target : Word) (s t : State) : Prop :=
  t.ip.toNat = if b then target.toNat else (s.ip.toNat + 1) % 65536

/-! ### What an instruction may write or raise, read from its rule -/

/-- The general register that is the instruction's destination (10_state.md R20; WRM, PSH, CMP and TST only read Rd). -/
def destination : Instr → Option Reg
  | .movR rd _ | .movI rd _ | .rdmR rd _ | .rdmI rd _ | .rdxR rd _ | .popR rd | .popI rd => some rd
  | .mulR rd _ | .mulI rd _ | .addR rd _ | .addI rd _ | .subR rd _ | .subI rd _ | .notR rd _ | .notI rd _ => some rd
  | .andR rd _ | .andI rd _ | .orrR rd _ | .orrI rd _ | .xorR rd _ | .xorI rd _ => some rd
  | .sllR rd _ | .sllI rd _ | .slrR rd _ | .slrI rd _ => some rd
  | .nop | .hltR _ | .hltI _ | .wrmR _ _ | .wrmI _ _ | .wrxR _ _ | .wrxI _ _ | .pshR _ | .pshI _ => none
  | .cmpR _ _ | .cmpI _ _ | .tstR _ _ | .tstI _ _ => none
  | .jmpR _ _ | .jmpI _ _ | .calR _ _ | .calI _ _ | .retR _ | .retI _ => none

/-- The flag-setting instructions (10_state.md R34; SLL and SLR by D8, log 12). -/
def setsFlags : Instr → Bool
  | .mulR _ _ | .mulI _ _ | .cmpR _ _ | .cmpI _ _ | .tstR _ _ | .tstI _ _ => true
  | .addR _ _ | .addI _ _ | .subR _ _ | .subI _ _ | .notR _ _ | .notI _ _ => true
  | .andR _ _ | .andI _ _ | .orrR _ _ | .orrI _ _ | .xorR _ _ | .xorI _ _ => true
  | .sllR _ _ | .sllI _ _ | .slrR _ _ | .slrI _ _ => true
  | .nop | .hltR _ | .hltI _ | .movR _ _ | .movI _ _ | .rdmR _ _ | .rdmI _ _ | .wrmR _ _ | .wrmI _ _ => false
  | .rdxR _ _ | .wrxR _ _ | .wrxI _ _ | .pshR _ | .pshI _ | .popR _ | .popI _ => false
  | .jmpR _ _ | .jmpI _ _ | .calR _ _ | .calI _ _ | .retR _ | .retI _ => false

/-- The external register that WRX names and the value it writes (41_data_movement.md R115). -/
def extWritten (s : State) : Instr → Option (ExtReg × Word)
  | .wrxR ed rs => some (ed, s.reg rs)
  | .wrxI ed imm8 => some (ed, imm16 imm8 s)
  | _ => none

/-- The mask and the target of a control transfer (43_control_transfer.md R125 to R128). -/
def transfer (s : State) : Instr → Option (CondMask × Word)
  | .jmpR ccc rs | .calR ccc rs => some (ccc, s.reg rs)
  | .jmpI ccc imm8 | .calI ccc imm8 => some (ccc, imm16 imm8 s)
  | .retR ccc | .retI ccc => some (ccc, s.lr)
  | _ => none

/-- The mask of a conditional instruction: HLT, JMP, CAL, RET (30_encoding.md R77). -/
def condMask : Instr → Option CondMask
  | .hltR ccc | .hltI ccc | .retR ccc | .retI ccc => some ccc
  | .jmpR ccc _ | .jmpI ccc _ | .calR ccc _ | .calI ccc _ => some ccc
  | _ => none

/-- CAL, in either format. -/
def isCall : Instr → Bool
  | .calR _ _ | .calI _ _ => true
  | _ => false

/-- HLT, in either format. -/
def isHalt : Instr → Bool
  | .hltR _ | .hltI _ => true
  | _ => false

/-- Where an instruction loads data from (20_memory.md R57). -/
def loadAddr (s : State) : Instr → Option Word
  | .rdmR _ rs => some (s.reg rs)
  | .rdmI _ imm8 => some (imm16 imm8 s)
  | .popR _ | .popI _ => some s.sp
  | _ => none

/-- Where an instruction stores to, by the functions its meaning uses for the address, and what (20_memory.md R57). -/
def storeAddr (s : State) : Instr → Option (Word × Word)
  | .wrmR rd rs => some (regOperand rs s, s.reg rd)
  | .wrmI rd imm8 => some (immOperand imm8 s, s.reg rd)
  | .pshR rd | .pshI rd => some (s.pushAddr, s.reg rd)
  | _ => none

/-- The one data access of an instruction, if any. -/
def accessAddr (s : State) (i : Instr) : Option Word := (loadAddr s i).or ((storeAddr s i).map Prod.fst)

/-- The reserved external register number that an instruction names (10_state.md R39). -/
def reservedNumber : Instr → Option (BitVec 3)
  | .rdxR _ .e3 | .wrxR .e3 _ | .wrxI .e3 _ => some 3#3
  | .rdxR _ .e6 | .wrxR .e6 _ | .wrxI .e6 _ => some 6#3
  | _ => none

/-- MUL, with the bits of its word (42_mul_cmp_tst.md R120). -/
def mulBits : Instr → Option Word
  | .mulR rd rs => some (wordR 0x10 rd.toBits rs.toBits)
  | .mulI rd imm8 => some (wordI 0x10 rd.toBits imm8)
  | _ => none

/-- The fault of 60_exceptions.md R151 that executing an instruction raises: `f` at `s`. -/
inductive Raises (s : State) (i : Instr) : Fault → Prop where
  | unaligned (a : Word) : accessAddr s i = some a → a.toNat % 2 = 1 → Raises s i (.unalignedAccess a)
  | reservedExternal (k : BitVec 3) : reservedNumber i = some k → Raises s i (.reservedExternalRegister k)
  | absent (bits : Word) : mulBits i = some bits → s.cf.toNat % 2 = 0 → Raises s i (.featureAbsent bits)

end Sys2Proof.Machine
end

