-- ==== Sys2Proof/Certificates/Slice0/Obligations.lean ====
section
/-! DEFINITION. The statements for the provers. Each docstring names the rule of spec/ that the statement formalises. Effects and
frames (`MoveEffect`, `AluEffect`, …) are those of Sys2Proof/Safety.lean. -/

open Sys2Proof Sys2Proof.Machine

/-! ### Encoding -/

/-- Sanity: words that stand in 95_test_vectors.md, section 2, written out in bits, one per family. -/
def Obligations.WordsOfTheSpecDecodeToTheirInstructions : Prop :=
  decode 0b0000000000000000#16 = .instr .nop ∧
    decode 0b0000011100000001#16 = .instr (.hltR 0b111#3) ∧
    decode 0b0010100000000001#16 = .instr (.movI .r0 0x01#8) ∧
    decode 0b0000001110000111#16 = .instr (.wrmR .r3 .r4) ∧
    decode 0b0000000100101100#16 = .instr (.rdxR .r1 .sp) ∧
    decode 0b0110110000000010#16 = .instr (.wrxI .ui 0x02#8) ∧
    decode 0b0111101001010101#16 = .instr (.popI .r2) ∧
    decode 0b1000001010000001#16 = .instr (.mulI .r2 0x81#8) ∧
    decode 0b0000000010011000#16 = .instr (.addR .r0 .r4) ∧
    decode 0b1010001000000101#16 = .instr (.jmpI 0b010#3 0x05#8) ∧
    decode 0b1111000000011000#16 = .instr (.sllI .r0 8) ∧
    decode 0b0000000000010010#16 = .rejected (.blankOpcode 0x12#5)

/-- Every row of opcode_table.json: a word decodes to the row's constructor if and only if `word AND mask = match`.
That the bits outside a mask and outside the operands do not matter, those of the NOP row among them, is the spec's decision D15
(log 17). -/
def Obligations.EachTableRowSelectsExactlyItsConstructor : Prop :=
  RowIs 0xF81F#16 0x0000#16 (fun | .nop => true | _ => false) ∧
  RowIs 0xF81F#16 0x0001#16 (fun | .hltR _ => true | _ => false) ∧
  RowIs 0xF800#16 0x0800#16 (fun | .hltI _ => true | _ => false) ∧
  RowIs 0xF81F#16 0x0005#16 (fun | .movR _ _ => true | _ => false) ∧
  RowIs 0xF800#16 0x2800#16 (fun | .movI _ _ => true | _ => false) ∧
  RowIs 0xF81F#16 0x0006#16 (fun | .rdmR _ _ => true | _ => false) ∧
  RowIs 0xF800#16 0x3000#16 (fun | .rdmI _ _ => true | _ => false) ∧
  RowIs 0xF81F#16 0x0007#16 (fun | .wrmR _ _ => true | _ => false) ∧
  RowIs 0xF800#16 0x3800#16 (fun | .wrmI _ _ => true | _ => false) ∧
  RowIs 0xF81F#16 0x000C#16 (fun | .rdxR _ _ => true | _ => false) ∧
  RowIs 0xF81F#16 0x000D#16 (fun | .wrxR _ _ => true | _ => false) ∧
  RowIs 0xF800#16 0x6800#16 (fun | .wrxI _ _ => true | _ => false) ∧
  RowIs 0xF81F#16 0x000E#16 (fun | .pshR _ => true | _ => false) ∧
  RowIs 0xF800#16 0x7000#16 (fun | .pshI _ => true | _ => false) ∧
  RowIs 0xF81F#16 0x000F#16 (fun | .popR _ => true | _ => false) ∧
  RowIs 0xF800#16 0x7800#16 (fun | .popI _ => true | _ => false) ∧
  RowIs 0xF81F#16 0x0010#16 (fun | .mulR _ _ => true | _ => false) ∧
  RowIs 0xF800#16 0x8000#16 (fun | .mulI _ _ => true | _ => false) ∧
  RowIs 0xF81F#16 0x0011#16 (fun | .cmpR _ _ => true | _ => false) ∧
  RowIs 0xF800#16 0x8800#16 (fun | .cmpI _ _ => true | _ => false) ∧
  RowIs 0xF81F#16 0x0013#16 (fun | .tstR _ _ => true | _ => false) ∧
  RowIs 0xF800#16 0x9800#16 (fun | .tstI _ _ => true | _ => false) ∧
  RowIs 0xF81F#16 0x0014#16 (fun | .jmpR _ _ => true | _ => false) ∧
  RowIs 0xF800#16 0xA000#16 (fun | .jmpI _ _ => true | _ => false) ∧
  RowIs 0xF81F#16 0x0015#16 (fun | .calR _ _ => true | _ => false) ∧
  RowIs 0xF800#16 0xA800#16 (fun | .calI _ _ => true | _ => false) ∧
  RowIs 0xF81F#16 0x0016#16 (fun | .retR _ => true | _ => false) ∧
  RowIs 0xF800#16 0xB000#16 (fun | .retI _ => true | _ => false) ∧
  RowIs 0xF81F#16 0x0018#16 (fun | .addR _ _ => true | _ => false) ∧
  RowIs 0xF800#16 0xC000#16 (fun | .addI _ _ => true | _ => false) ∧
  RowIs 0xF81F#16 0x0019#16 (fun | .subR _ _ => true | _ => false) ∧
  RowIs 0xF800#16 0xC800#16 (fun | .subI _ _ => true | _ => false) ∧
  RowIs 0xF81F#16 0x001A#16 (fun | .notR _ _ => true | _ => false) ∧
  RowIs 0xF800#16 0xD000#16 (fun | .notI _ _ => true | _ => false) ∧
  RowIs 0xF81F#16 0x001B#16 (fun | .andR _ _ => true | _ => false) ∧
  RowIs 0xF800#16 0xD800#16 (fun | .andI _ _ => true | _ => false) ∧
  RowIs 0xF81F#16 0x001C#16 (fun | .orrR _ _ => true | _ => false) ∧
  RowIs 0xF800#16 0xE000#16 (fun | .orrI _ _ => true | _ => false) ∧
  RowIs 0xF81F#16 0x001D#16 (fun | .xorR _ _ => true | _ => false) ∧
  RowIs 0xF800#16 0xE800#16 (fun | .xorI _ _ => true | _ => false) ∧
  RowIs 0xF81F#16 0x001E#16 (fun | .sllR _ _ => true | _ => false) ∧
  RowIs 0xF800#16 0xF000#16 (fun | .sllI _ _ => true | _ => false) ∧
  RowIs 0xF81F#16 0x001F#16 (fun | .slrR _ _ => true | _ => false) ∧
  RowIs 0xF800#16 0xF800#16 (fun | .slrI _ _ => true | _ => false)

/-- Headline: for EVERY well-formed instruction, every operand at every value, decoding its word gives it back. -/
def Obligations.DecodeOfEncodeIsTheInstruction : Prop :=
  ∀ i : Instr, i.wellFormed = true → decode (encode i) = .instr i

/-- Headline, the other direction: every word that decodes gives a well-formed instruction, whose encoding is that word with the bits
its instruction ignores cleared. That those bits are ignored is the spec's decision D15 (log 17). -/
def Obligations.EncodeOfDecodeIsTheCanonicalWord : Prop :=
  ∀ (w : Word) (i : Instr), decode w = .instr i → i.wellFormed = true ∧ encode i = w &&& ~~~ ignoredBits w

/-- The words without an instruction are exactly those with a blank opcode and the I-format of opcode 0C. That they stop is the spec's
decision D14 (log 16). -/
def Obligations.ExactlyTheReservedWordsAreRejected : Prop :=
  ∀ w : Word, (∃ why, decode w = .rejected why) ↔ reservedWord w

/-- R77. For HLT, JMP, CAL and RET the first operand field holds ccc, bit 10 for L, bit 9 for E, bit 8 for G, in the order of FL[2:0];
in R-format the target register of JMP and CAL is field C. -/
def Obligations.ConditionCodesStandWhereTheFirstOperandWould : Prop :=
  (∀ (w : Word) (i : Instr) (ccc : CondMask), decode w = .instr i → condMask i = some ccc →
    ccc.getLsbD 2 = w.getLsbD 10 ∧ ccc.getLsbD 1 = w.getLsbD 9 ∧ ccc.getLsbD 0 = w.getLsbD 8 ∧
      ∀ rs, i = .jmpR ccc rs ∨ i = .calR ccc rs → rs.toBits.toNat = w.toNat / 0x20 % 8) ∧
  (∀ w : Word, (∃ i ccc, decode w = .instr i ∧ condMask i = some ccc) ↔
    (w.toNat / 0x800 = 0 ∧ w.toNat % 0x20 ∈ [0x01, 0x14, 0x15, 0x16]) ∨ w.toNat / 0x800 ∈ [0x01, 0x14, 0x15, 0x16]) ∧
  (∀ (ccc : CondMask) (s : State), FlagsOneHot s → (condHolds ccc s = true ↔
    (s.fl.getLsbD 2 = true ∧ ccc.getLsbD 2 = true) ∨ (s.fl.getLsbD 1 = true ∧ ccc.getLsbD 1 = true) ∨
      (s.fl.getLsbD 0 = true ∧ ccc.getLsbD 0 = true)))

/-! ### The step -/

/-- A step runs the decoded instruction: the instruction of index k is the big-endian word at byte address 2k, and nothing is added
around `exec`. -/
def Obligations.AStepRunsTheDecodedInstruction : Prop :=
  ∀ (s : State) (i : Instr), s.halted = false → s.ip.toNat < 0x8000 → decode (wordAt s (2 * s.ip.toNat)) = .instr i →
    step s = exec i s

/-- Where a step stops before an instruction runs: an index at or above 0x8000 (the spec's decision D3, log 7) before any memory is
read, then a reserved word (D14, log 16); the order is D24 (log 29). -/
def Obligations.AStepStopsOnFetchRangeThenOnReservedWord : Prop :=
  ∀ s : State, s.halted = false →
    (0x8000 ≤ s.ip.toNat → ∀ m : Memory, step { s with mem := m } = .fault (.fetchOutOfRange s.ip)) ∧
      (s.ip.toNat < 0x8000 → reservedWord (wordAt s (2 * s.ip.toNat)) →
        step s = .fault (.reservedInstruction (wordAt s (2 * s.ip.toNat))))

/-- While halted nothing is executed: the state stays as it is (that a step answers it is the model's form, log 24). Only HLT sets the
bit, and no instruction reads it. -/
def Obligations.HaltedStaysAndIsReadByNoInstruction : Prop :=
  (∀ s : State, s.halted = true → step s = .next s) ∧
    (∀ (i : Instr) (s t : State), exec i s = .next t → isHalt i = false → t.halted = s.halted) ∧
    (∀ (i : Instr) (s t : State), exec i s = .next t → s.halted = true → t.halted = true) ∧
    (∀ (i : Instr) (s t : State) (b : Bool), exec i s = .next t → isHalt i = false →
      exec i { s with halted := b } = .next { t with halted := b }) ∧
    (∀ (i : Instr) (s : State) (b : Bool) (f : Fault), exec i s = .fault f ↔ exec i { s with halted := b } = .fault f)

/-! ### One instruction each: its words, and its whole effect with its frame -/

/-- NOP does nothing but the frame of the cycle. That fields B and C are ignored is the spec's decision D15 (log 17). -/
def Obligations.NopOnlyEndsItsCycle : Prop :=
  ∀ (b c : BitVec 3) (s : State),
    decode (wordR 0x00 b c) = .instr .nop ∧
      ∃ t, exec .nop s = .next t ∧ Sequential s t ∧ SameRegs s t ∧ t.fl = s.fl ∧ t.sp = s.sp ∧ SameRest s t ∧ SameMem s t

/-- HLT sets `halted` if its condition holds and completes its cycle either way. The draw on FL that is not one-hot is the spec's
decision D9 (log 13), the completed cycle of the halting instruction D22 (log 22). -/
def Obligations.HltHaltsWhenItsConditionHolds : Prop :=
  ∀ (ccc c : BitVec 3) (imm8 : Imm8) (s : State),
    decode (wordR 0x01 ccc c) = .instr (.hltR ccc) ∧ decode (wordI 0x01 ccc imm8) = .instr (.hltI ccc) ∧
      ∃ b t, TestOutcome ccc s b ∧ exec (.hltR ccc) s = .next t ∧ exec (.hltI ccc) s = .next t ∧
        t.halted = (s.halted || b) ∧ Sequential s t ∧ t.lr = s.lr ∧ CondFrame ccc s t

/-- R111. MOV copies the second operand into Rd; FL stays. -/
def Obligations.MovCopiesTheSecondOperand : Prop :=
  ∀ (rd rs : Reg) (imm8 : Imm8) (s : State),
    decode (wordR 0x05 rd.toBits rs.toBits) = .instr (.movR rd rs) ∧ decode (wordI 0x05 rd.toBits imm8) = .instr (.movI rd imm8) ∧
      (∃ t, exec (.movR rd rs) s = .next t ∧ MoveEffect rd (s.reg rs) s t) ∧
      (∃ t, exec (.movI rd imm8) s = .next t ∧ MoveEffect rd (imm16 imm8 s) s t)

/-- RDM loads the big-endian word at its second operand; an odd address stops, the spec's decision D5 (log 9). -/
def Obligations.RdmLoadsTheWordAtItsOperand : Prop :=
  ∀ (rd rs : Reg) (imm8 : Imm8) (s : State),
    decode (wordR 0x06 rd.toBits rs.toBits) = .instr (.rdmR rd rs) ∧ decode (wordI 0x06 rd.toBits imm8) = .instr (.rdmI rd imm8) ∧
      ((s.reg rs).toNat % 2 = 0 → ∃ t, exec (.rdmR rd rs) s = .next t ∧ MoveEffect rd (wordAt s (s.reg rs).toNat) s t) ∧
      ((imm16 imm8 s).toNat % 2 = 0 →
        ∃ t, exec (.rdmI rd imm8) s = .next t ∧ MoveEffect rd (wordAt s (imm16 imm8 s).toNat) s t) ∧
      ((s.reg rs).toNat % 2 = 1 → exec (.rdmR rd rs) s = .fault (.unalignedAccess (s.reg rs))) ∧
      ((imm16 imm8 s).toNat % 2 = 1 → exec (.rdmI rd imm8) s = .fault (.unalignedAccess (imm16 imm8 s)))

/-- WRM stores Rd, high byte first, at its second operand; an odd address stops, the spec's decision D5 (log 9). -/
def Obligations.WrmStoresAtItsOperand : Prop :=
  ∀ (rd rs : Reg) (imm8 : Imm8) (s : State),
    decode (wordR 0x07 rd.toBits rs.toBits) = .instr (.wrmR rd rs) ∧ decode (wordI 0x07 rd.toBits imm8) = .instr (.wrmI rd imm8) ∧
      regOperand rs s = s.reg rs ∧ immOperand imm8 s = imm16 imm8 s ∧
      ((regOperand rs s).toNat % 2 = 0 →
        ∃ t, exec (.wrmR rd rs) s = .next t ∧ StoreEffect (regOperand rs s) (s.reg rd) s.sp s t) ∧
      ((immOperand imm8 s).toNat % 2 = 0 →
        ∃ t, exec (.wrmI rd imm8) s = .next t ∧ StoreEffect (immOperand imm8 s) (s.reg rd) s.sp s t) ∧
      ((s.reg rs).toNat % 2 = 1 → exec (.wrmR rd rs) s = .fault (.unalignedAccess (s.reg rs))) ∧
      ((imm16 imm8 s).toNat % 2 = 1 → exec (.wrmI rd imm8) s = .fault (.unalignedAccess (imm16 imm8 s)))

/-- RDX copies an external register: IP already past this instruction, UI as it was left, all 16 bits (D17, log 19), FL with bits
15:3 as 0 (D10, log 14). Numbers 3 and 6 stop, the spec's decision D16 (log 18). -/
def Obligations.RdxCopiesAnExternalRegister : Prop :=
  ∀ (rd : Reg) (es : ExtReg) (s : State),
    decode (wordR 0x0C rd.toBits es.toBits) = .instr (.rdxR rd es) ∧
      (¬ CarriesNoRegister es → ∃ t, exec (.rdxR rd es) s = .next t ∧ MoveEffect rd (extValue es s) s t) ∧
      (CarriesNoRegister es → exec (.rdxR rd es) s = .fault (.reservedExternalRegister es.toBits))

/-- WRX copies the second operand into an external register: a written IP is not incremented, a written UI survives, all 16
bits (D17, log 19), FL takes bits 2:0 (D10, log 14), CF ignores it. Numbers 3 and 6 stop, the spec's decision D16 (log 18). -/
def Obligations.WrxCopiesIntoAnExternalRegister : Prop :=
  ∀ (ed : ExtReg) (rs : Reg) (imm8 : Imm8) (s : State),
    decode (wordR 0x0D ed.toBits rs.toBits) = .instr (.wrxR ed rs) ∧ decode (wordI 0x0D ed.toBits imm8) = .instr (.wrxI ed imm8) ∧
      (¬ CarriesNoRegister ed → ∃ t, exec (.wrxR ed rs) s = .next t ∧ ExtWriteEffect ed (s.reg rs) s t) ∧
      (¬ CarriesNoRegister ed → ∃ t, exec (.wrxI ed imm8) s = .next t ∧ ExtWriteEffect ed (imm16 imm8 s) s t) ∧
      (CarriesNoRegister ed → exec (.wrxR ed rs) s = .fault (.reservedExternalRegister ed.toBits) ∧
        exec (.wrxI ed imm8) s = .fault (.reservedExternalRegister ed.toBits))

/-- PSH stores Rd at SP - 2, which becomes SP. The wrap of SP at 0 is the spec's decision D23 (log 23), the stop at an odd SP D5
(log 9). -/
def Obligations.PshStoresBelowTheStackPointer : Prop :=
  ∀ (rd : Reg) (c : BitVec 3) (imm8 : Imm8) (s : State),
    decode (wordR 0x0E rd.toBits c) = .instr (.pshR rd) ∧ decode (wordI 0x0E rd.toBits imm8) = .instr (.pshI rd) ∧
      s.pushAddr.toNat = (s.sp.toNat + 65534) % 65536 ∧
      (s.sp.toNat % 2 = 0 → ∃ t, exec (.pshR rd) s = .next t ∧ exec (.pshI rd) s = .next t ∧
        StoreEffect s.pushAddr (s.reg rd) s.pushAddr s t) ∧
      (s.sp.toNat % 2 = 1 → exec (.pshR rd) s = .fault (.unalignedAccess s.pushAddr) ∧
        exec (.pshI rd) s = .fault (.unalignedAccess s.pushAddr))

/-- POP loads Rd from SP, then adds 2 to SP. The wrap of SP is the spec's decision D23 (log 23), the stop at an odd SP D5 (log 9). -/
def Obligations.PopLoadsFromTheStackPointer : Prop :=
  ∀ (rd : Reg) (c : BitVec 3) (imm8 : Imm8) (s : State),
    decode (wordR 0x0F rd.toBits c) = .instr (.popR rd) ∧ decode (wordI 0x0F rd.toBits imm8) = .instr (.popI rd) ∧
      (s.sp.toNat % 2 = 0 → ∃ t, exec (.popR rd) s = .next t ∧ exec (.popI rd) s = .next t ∧
        t.reg rd = wordAt s s.sp.toNat ∧ t.sp.toNat = (s.sp.toNat + 2) % 65536 ∧ SameRegsBut rd s t ∧ t.fl = s.fl ∧
        Sequential s t ∧ SameRest s t ∧ SameMem s t) ∧
      (s.sp.toNat % 2 = 1 → exec (.popR rd) s = .fault (.unalignedAccess s.sp) ∧ exec (.popI rd) s = .fault (.unalignedAccess s.sp))

/-- MUL writes the low 16 bits of the unsigned product and sets the flags from them, on a machine whose CF bit 0 is 1. Without it the
instruction stops, the spec's decision D13 (log 15). -/
def Obligations.MulWritesTheTruncatedProduct : Prop :=
  ∀ (rd rs : Reg) (imm8 : Imm8) (s : State),
    decode (wordR 0x10 rd.toBits rs.toBits) = .instr (.mulR rd rs) ∧ decode (wordI 0x10 rd.toBits imm8) = .instr (.mulI rd imm8) ∧
      (s.cf.toNat % 2 = 1 → ∃ t, exec (.mulR rd rs) s = .next t ∧
        AluEffect rd (BitVec.ofNat 16 ((s.reg rd).toNat * (s.reg rs).toNat)) s t) ∧
      (s.cf.toNat % 2 = 1 → ∃ t, exec (.mulI rd imm8) s = .next t ∧
        AluEffect rd (BitVec.ofNat 16 ((s.reg rd).toNat * (imm16 imm8 s).toNat)) s t) ∧
      (s.cf.toNat % 2 = 0 → exec (.mulR rd rs) s = .fault (.featureAbsent (wordR 0x10 rd.toBits rs.toBits)) ∧
        exec (.mulI rd imm8) s = .fault (.featureAbsent (wordI 0x10 rd.toBits imm8)))

/-- CMP sets the flags of the wrapped difference, without correction for signed overflow: the spec's decision D7 (log 11). -/
def Obligations.CmpSetsTheFlagsOfTheDifference : Prop :=
  ∀ (rd rs : Reg) (imm8 : Imm8) (s : State),
    decode (wordR 0x11 rd.toBits rs.toBits) = .instr (.cmpR rd rs) ∧ decode (wordI 0x11 rd.toBits imm8) = .instr (.cmpI rd imm8) ∧
      (∃ t, exec (.cmpR rd rs) s = .next t ∧
        FlagsEffect (BitVec.ofNat 16 ((s.reg rd).toNat + (65536 - (s.reg rs).toNat))) s t) ∧
      (∃ t, exec (.cmpI rd imm8) s = .next t ∧
        FlagsEffect (BitVec.ofNat 16 ((s.reg rd).toNat + (65536 - (imm16 imm8 s).toNat))) s t)

/-- R122. TST sets the flags of the bitwise and, and writes no register. -/
def Obligations.TstSetsTheFlagsOfTheAnd : Prop :=
  ∀ (rd rs : Reg) (imm8 : Imm8) (s : State),
    decode (wordR 0x13 rd.toBits rs.toBits) = .instr (.tstR rd rs) ∧ decode (wordI 0x13 rd.toBits imm8) = .instr (.tstI rd imm8) ∧
      (∃ t, exec (.tstR rd rs) s = .next t ∧ FlagsEffect (s.reg rd &&& s.reg rs) s t) ∧
      (∃ t, exec (.tstI rd imm8) s = .next t ∧ FlagsEffect (s.reg rd &&& imm16 imm8 s) s t)

/-- JMP. The draw on FL that is not one-hot is the spec's decision D9 (log 13). -/
def Obligations.JmpGoesToItsOperandWhenItsConditionHolds : Prop :=
  ∀ (ccc : CondMask) (rs : Reg) (imm8 : Imm8) (s : State),
    decode (wordR 0x14 ccc rs.toBits) = .instr (.jmpR ccc rs) ∧ decode (wordI 0x14 ccc imm8) = .instr (.jmpI ccc imm8) ∧
      ∃ b, TestOutcome ccc s b ∧
        (∃ t, exec (.jmpR ccc rs) s = .next t ∧ TransferIp b (s.reg rs) s t ∧ t.lr = s.lr ∧ t.halted = s.halted ∧
          CondFrame ccc s t) ∧
        (∃ t, exec (.jmpI ccc imm8) s = .next t ∧ TransferIp b (imm16 imm8 s) s t ∧ t.lr = s.lr ∧ t.halted = s.halted ∧
          CondFrame ccc s t)

/-- CAL saves the index after itself in LR and jumps; LR stays if the condition does not hold. The draw is the spec's decision D9
(log 13). -/
def Obligations.CalSavesTheReturnIndexAndJumps : Prop :=
  ∀ (ccc : CondMask) (rs : Reg) (imm8 : Imm8) (s : State),
    decode (wordR 0x15 ccc rs.toBits) = .instr (.calR ccc rs) ∧ decode (wordI 0x15 ccc imm8) = .instr (.calI ccc imm8) ∧
      ∃ b, TestOutcome ccc s b ∧
        (∃ t, exec (.calR ccc rs) s = .next t ∧ TransferIp b (s.reg rs) s t ∧
          t.lr.toNat = (if b then (s.ip.toNat + 1) % 65536 else s.lr.toNat) ∧ t.halted = s.halted ∧ CondFrame ccc s t) ∧
        (∃ t, exec (.calI ccc imm8) s = .next t ∧ TransferIp b (imm16 imm8 s) s t ∧
          t.lr.toNat = (if b then (s.ip.toNat + 1) % 65536 else s.lr.toNat) ∧ t.halted = s.halted ∧ CondFrame ccc s t)

/-- RET copies LR to IP and changes LR, SP and memory nowhere. The draw is the spec's decision D9 (log 13). -/
def Obligations.RetGoesToTheLinkRegister : Prop :=
  ∀ (ccc c : BitVec 3) (imm8 : Imm8) (s : State),
    decode (wordR 0x16 ccc c) = .instr (.retR ccc) ∧ decode (wordI 0x16 ccc imm8) = .instr (.retI ccc) ∧
      ∃ b t, TestOutcome ccc s b ∧ exec (.retR ccc) s = .next t ∧ exec (.retI ccc) s = .next t ∧ TransferIp b s.lr s t ∧
        t.lr = s.lr ∧ t.halted = s.halted ∧ CondFrame ccc s t

/-- ADD. That the sum wraps modulo 65536 and the flags are those of the wrapped sum is the spec's decision D6 (log 10). -/
def Obligations.AddWritesTheWrappedSum : Prop :=
  ∀ (rd rs : Reg) (imm8 : Imm8) (s : State),
    decode (wordR 0x18 rd.toBits rs.toBits) = .instr (.addR rd rs) ∧ decode (wordI 0x18 rd.toBits imm8) = .instr (.addI rd imm8) ∧
      (∃ t, exec (.addR rd rs) s = .next t ∧ AluEffect rd (BitVec.ofNat 16 ((s.reg rd).toNat + (s.reg rs).toNat)) s t) ∧
      (∃ t, exec (.addI rd imm8) s = .next t ∧ AluEffect rd (BitVec.ofNat 16 ((s.reg rd).toNat + (imm16 imm8 s).toNat)) s t)

/-- SUB: Rd is the minuend. That the difference wraps modulo 65536 is the spec's decision D6 (log 10). -/
def Obligations.SubWritesTheWrappedDifference : Prop :=
  ∀ (rd rs : Reg) (imm8 : Imm8) (s : State),
    decode (wordR 0x19 rd.toBits rs.toBits) = .instr (.subR rd rs) ∧ decode (wordI 0x19 rd.toBits imm8) = .instr (.subI rd imm8) ∧
      (∃ t, exec (.subR rd rs) s = .next t ∧
        AluEffect rd (BitVec.ofNat 16 ((s.reg rd).toNat + (65536 - (s.reg rs).toNat))) s t) ∧
      (∃ t, exec (.subI rd imm8) s = .next t ∧
        AluEffect rd (BitVec.ofNat 16 ((s.reg rd).toNat + (65536 - (imm16 imm8 s).toNat))) s t)

/-- R132. NOT writes the complement of the second operand, all 16 bits inverted; the old Rd is not used. -/
def Obligations.NotWritesTheComplementOfTheOperand : Prop :=
  ∀ (rd rs : Reg) (imm8 : Imm8) (s : State),
    decode (wordR 0x1A rd.toBits rs.toBits) = .instr (.notR rd rs) ∧ decode (wordI 0x1A rd.toBits imm8) = .instr (.notI rd imm8) ∧
      (∃ t, exec (.notR rd rs) s = .next t ∧ AluEffect rd (BitVec.ofNat 16 (65535 - (s.reg rs).toNat)) s t) ∧
      (∃ t, exec (.notI rd imm8) s = .next t ∧ AluEffect rd (BitVec.ofNat 16 (65535 - (imm16 imm8 s).toNat)) s t)

/-- R133. AND. -/
def Obligations.AndWritesTheBitwiseAnd : Prop :=
  ∀ (rd rs : Reg) (imm8 : Imm8) (s : State),
    decode (wordR 0x1B rd.toBits rs.toBits) = .instr (.andR rd rs) ∧ decode (wordI 0x1B rd.toBits imm8) = .instr (.andI rd imm8) ∧
      (∃ t, exec (.andR rd rs) s = .next t ∧ AluEffect rd (s.reg rd &&& s.reg rs) s t) ∧
      (∃ t, exec (.andI rd imm8) s = .next t ∧ AluEffect rd (s.reg rd &&& imm16 imm8 s) s t)

/-- R134. ORR. -/
def Obligations.OrrWritesTheBitwiseOr : Prop :=
  ∀ (rd rs : Reg) (imm8 : Imm8) (s : State),
    decode (wordR 0x1C rd.toBits rs.toBits) = .instr (.orrR rd rs) ∧ decode (wordI 0x1C rd.toBits imm8) = .instr (.orrI rd imm8) ∧
      (∃ t, exec (.orrR rd rs) s = .next t ∧ AluEffect rd (s.reg rd ||| s.reg rs) s t) ∧
      (∃ t, exec (.orrI rd imm8) s = .next t ∧ AluEffect rd (s.reg rd ||| imm16 imm8 s) s t)

/-- R135. XOR. -/
def Obligations.XorWritesTheBitwiseXor : Prop :=
  ∀ (rd rs : Reg) (imm8 : Imm8) (s : State),
    decode (wordR 0x1D rd.toBits rs.toBits) = .instr (.xorR rd rs) ∧ decode (wordI 0x1D rd.toBits imm8) = .instr (.xorI rd imm8) ∧
      (∃ t, exec (.xorR rd rs) s = .next t ∧ AluEffect rd (s.reg rd ^^^ s.reg rs) s t) ∧
      (∃ t, exec (.xorI rd imm8) s = .next t ∧ AluEffect rd (s.reg rd ^^^ imm16 imm8 s) s t)

/-- SLL multiplies by 2 to the power of the low 4 bits of the second operand, modulo 65536. That it sets the flags is the spec's
decision D8 (log 12). -/
def Obligations.SllShiftsLeftByTheLowFourBits : Prop :=
  ∀ (rd rs : Reg) (imm8 : Imm8) (s : State),
    decode (wordR 0x1E rd.toBits rs.toBits) = .instr (.sllR rd rs) ∧
      decode (wordI 0x1E rd.toBits imm8) = .instr (.sllI rd (imm8.toNat % 16)) ∧
      (∃ t, exec (.sllR rd rs) s = .next t ∧ AluEffect rd (BitVec.ofNat 16 ((s.reg rd).toNat * 2 ^ ((s.reg rs).toNat % 16))) s t) ∧
      (∃ t, exec (.sllI rd (imm8.toNat % 16)) s = .next t ∧
        AluEffect rd (BitVec.ofNat 16 ((s.reg rd).toNat * 2 ^ (imm8.toNat % 16))) s t)

/-- SLR divides by 2 to the power of the low 4 bits of the second operand. That it sets the flags is the spec's decision D8
(log 12). -/
def Obligations.SlrShiftsRightByTheLowFourBits : Prop :=
  ∀ (rd rs : Reg) (imm8 : Imm8) (s : State),
    decode (wordR 0x1F rd.toBits rs.toBits) = .instr (.slrR rd rs) ∧
      decode (wordI 0x1F rd.toBits imm8) = .instr (.slrI rd (imm8.toNat % 16)) ∧
      (∃ t, exec (.slrR rd rs) s = .next t ∧ AluEffect rd (BitVec.ofNat 16 ((s.reg rd).toNat / 2 ^ ((s.reg rs).toNat % 16))) s t) ∧
      (∃ t, exec (.slrI rd (imm8.toNat % 16)) s = .next t ∧
        AluEffect rd (BitVec.ofNat 16 ((s.reg rd).toNat / 2 ^ (imm8.toNat % 16))) s t)

/-! ### Rules of the whole machine -/

/-- R78. An I-format instruction does with `(UI[7:0] << 8) | imm8` what the R-format does with the register in field C: where
that register holds that value the two formats have one outcome, for every instruction with both forms but SLL and SLR (MUL where it
is present, since its fault records the instruction bits). In R-format UI plays no part: another UI changes no outcome, but where
RDX reads UI itself. -/
def Obligations.ImmediatesAreZeroExtendedUnderTheUpperByte : Prop :=
  (∀ (imm8 : Imm8) (s : State), ImmediateActsAs ((s.ui.toNat % 256) * 256 + imm8.toNat) imm8 s) ∧
  (∀ (rd rs : Reg) (ed : ExtReg) (ccc : CondMask) (u : Word) (s : State) (i : Instr),
    i ∈ [.movR rd rs, .rdmR rd rs, .wrmR rd rs, .wrxR ed rs, .mulR rd rs, .cmpR rd rs, .tstR rd rs, .jmpR ccc rs, .calR ccc rs,
      .addR rd rs, .subR rd rs, .notR rd rs, .andR rd rs, .orrR rd rs, .xorR rd rs, .sllR rd rs, .slrR rd rs] →
    exec i { s with ui := u } = exec i s)

/-- R79. In I-format SLL and SLR shift by bits 3:0 of the word: bits 7:4 and UI do not matter, and UI is cleared; in R-format by the
low 4 bits of the register. -/
def Obligations.ShiftAmountsAreTheLowFourBits : Prop :=
  ∀ (rd rs : Reg) (b : BitVec 3) (imm8 other : Imm8) (u : Word) (s : State),
    (imm8.toNat % 16 = other.toNat % 16 → decode (wordI 0x1E b imm8) = decode (wordI 0x1E b other) ∧
      decode (wordI 0x1F b imm8) = decode (wordI 0x1F b other)) ∧
    (∃ t, decode (wordI 0x1E rd.toBits imm8) = .instr (.sllI rd (imm8.toNat % 16)) ∧
      exec (.sllI rd (imm8.toNat % 16)) { s with ui := u } = .next t ∧ t.ui = 0#16 ∧
      (t.reg rd).toNat = (s.reg rd).toNat * 2 ^ (imm8.toNat % 16) % 65536) ∧
    (∃ t, decode (wordI 0x1F rd.toBits imm8) = .instr (.slrI rd (imm8.toNat % 16)) ∧
      exec (.slrI rd (imm8.toNat % 16)) { s with ui := u } = .next t ∧ t.ui = 0#16 ∧
      (t.reg rd).toNat = (s.reg rd).toNat / 2 ^ (imm8.toNat % 16)) ∧
    (∃ t, exec (.sllR rd rs) { s with ui := u } = .next t ∧ t.ui = 0#16 ∧
      (t.reg rd).toNat = (s.reg rd).toNat * 2 ^ ((s.reg rs).toNat % 16) % 65536) ∧
    (∃ t, exec (.slrR rd rs) { s with ui := u } = .next t ∧ t.ui = 0#16 ∧
      (t.reg rd).toNat = (s.reg rd).toNat / 2 ^ ((s.reg rs).toNat % 16))

/-- UI lives for one instruction: every instruction that is not a WRX to UI ends with UI zero, whether or not it used an immediate and
whether or not its condition held; a WRX to UI leaves it holding its operand (all 16 bits: D17, log 19). That UI is 0 also after the
HLT that halts is D22 (log 22). -/
def Obligations.UiLivesForOneInstruction : Prop :=
  ∀ (i : Instr) (s t : State), exec i s = .next t →
    t.ui = match extWritten s i with
      | some (.ui, v) => v
      | _ => 0#16

/-- IP ends one higher modulo 65536 unless the instruction writes it, which only JMP, CAL, RET (where the condition holds) and WRX to IP
do, and then no increment follows; RDX of IP and CAL read the index after their own. The wrap is the spec's decision D4 (log 8); that
the HLT that halts moves IP like any other instruction is D22 (log 22). -/
def Obligations.IpIsTheNextIndexUnlessWritten : Prop :=
  (∀ (i : Instr) (s t : State), exec i s = .next t →
    match extWritten s i, transfer s i with
    | some (.ip, v), _ => t.ip = v
    | _, some (ccc, target) => t.ip = if condHolds ccc s then target else BitVec.ofNat 16 (s.ip.toNat + 1)
    | _, none => t.ip = BitVec.ofNat 16 (s.ip.toNat + 1)) ∧
  (∀ (rd : Reg) (s : State), ∃ t, exec (.rdxR rd .ip) s = .next t ∧ (t.reg rd).toNat = (s.ip.toNat + 1) % 65536) ∧
  (∀ (i : Instr) (s t : State) (ccc : CondMask) (target : Word), exec i s = .next t → isCall i = true →
    transfer s i = some (ccc, target) → condHolds ccc s = true → t.lr.toNat = (s.ip.toNat + 1) % 65536)

/-- R29. LR is changed by CAL, which copies the index after itself into it, overwriting what was there, and by WRX, and by nothing else;
RET copies it into IP unchanged; its reset value is 0. -/
def Obligations.LrIsWrittenByCalAndWrxOnly : Prop :=
  (∀ (i : Instr) (s t : State), exec i s = .next t →
    match extWritten s i, transfer s i with
    | some (.lr, v), _ => t.lr = v
    | _, some (ccc, _) => t.lr = if isCall i && condHolds ccc s then BitVec.ofNat 16 (s.ip.toNat + 1) else s.lr
    | _, none => t.lr = s.lr) ∧
  (∀ (ccc : CondMask) (s : State), condHolds ccc s = true →
    ∃ t, exec (.retR ccc) s = .next t ∧ exec (.retI ccc) s = .next t ∧ t.ip = s.lr) ∧
  (∀ (m : Bool) (f : FlReset) (mem : Memory), (State.resetWith m f mem).lr = 0#16)

/-- SP is changed by PSH, POP and WRX only, by the first two by 2 modulo 65536: the wrap is the spec's decision D23 (log 23). -/
def Obligations.SpIsWrittenByPshPopAndWrxOnly : Prop :=
  ∀ (i : Instr) (s t : State), exec i s = .next t →
    match extWritten s i, i with
    | some (.sp, v), _ => t.sp = v
    | _, .pshR _ | _, .pshI _ => t.sp.toNat = (s.sp.toNat + 65534) % 65536
    | _, .popR _ | _, .popI _ => t.sp.toNat = (s.sp.toNat + 2) % 65536
    | _, _ => t.sp = s.sp

/-- FL changes only by the flag-setting instructions, which leave it one-hot, and by WRX to FL, which takes bits 2:0; bits 15:3 never
change. That SLL and SLR are among the former is the spec's decision D8 (log 12); bits 15:3 are D10 (log 14). -/
def Obligations.FlIsWrittenByFlagSettersAndWrxOnly : Prop :=
  ∀ (i : Instr) (s t : State), exec i s = .next t →
    t.fl.toNat / 8 = s.fl.toNat / 8 ∧
      match setsFlags i, extWritten s i with
      | true, _ => FlagsOneHot t
      | false, some (.fl, v) => t.fl.toNat % 8 = v.toNat % 8
      | false, _ => t.fl = s.fl

/-- `SetFlags(r)` sets exactly one of L, E, G, by the 16-bit result alone, and keeps bits 15:3; it changes nothing else, and after
every flag-setting instruction FL[2:0] is one-hot. That SLL and SLR are among those is the spec's decision D8 (log 12). -/
def Obligations.SetFlagsIsOneHotOnTheResult : Prop :=
  (∀ (r : Word) (s : State),
    FlagsShow r s (s.setFlags r) ∧ s.setFlags r = { s with fl := (s.setFlags r).fl } ∧
      ((s.setFlags r).fl.getLsbD 2 = true ↔ r.toInt < 0) ∧ ((s.setFlags r).fl.getLsbD 1 = true ↔ r = 0#16) ∧
      ((s.setFlags r).fl.getLsbD 0 = true ↔ 0 < r.toInt)) ∧
  (∀ (i : Instr) (s t : State), setsFlags i = true → exec i s = .next t → FlagsOneHot t)

/-- From one-hot flags, a step leaves one-hot flags unless it ran a WRX to FL. That SLL and SLR set flags is the spec's decision D8
(log 12). -/
def Obligations.OnlyWrxToFlEndsOneHotFlags : Prop :=
  ∀ (s t : State), FlagsOneHot s → step s = .next t →
    FlagsOneHot t ∨ ∃ i v, decode (wordAt s (2 * s.ip.toNat)) = .instr i ∧ extWritten s i = some (.fl, v)

/-- R37. CF is read-only to programs: RDX returns it, WRX to CF completes and changes only IP and UI, and no instruction changes it. -/
def Obligations.CfIsReadOnly : Prop :=
  (∀ (i : Instr) (s t : State), exec i s = .next t → t.cf = s.cf) ∧
  (∀ (rd : Reg) (s : State), ∃ t, exec (.rdxR rd .cf) s = .next t ∧ t.reg rd = s.cf) ∧
  (∀ (rs : Reg) (imm8 : Imm8) (s : State),
    exec (.wrxR .cf rs) s = .next { s with ip := BitVec.ofNat 16 (s.ip.toNat + 1), ui := 0#16 } ∧
      exec (.wrxI .cf imm8) s = .next { s with ip := BitVec.ofNat 16 (s.ip.toNat + 1), ui := 0#16 })

/-- No general register changes but the destination of the instruction; WRM, PSH, CMP and TST only read Rd. -/
def Obligations.OnlyTheDestinationRegisterChanges : Prop :=
  ∀ (i : Instr) (s t : State) (r : Reg), exec i s = .next t → destination i ≠ some r → t.reg r = s.reg r

/-- Exactly RDM, WRM, PSH and POP access data memory, each by one 16-bit access at its address; no other instruction stores a byte, and
no other instruction's outcome depends on memory. Only PSH and POP modify their address register, SP. That a completed access is at an
even address is the spec's decision D5 (log 9), the wrap of SP D23 (log 23). -/
def Obligations.FourInstructionsAccessMemory : Prop :=
  (∀ (i : Instr) (s t : State), exec i s = .next t →
    match storeAddr s i with
    | some (a, v) => a.toNat % 2 = 0 ∧ (t.mem.readByte a.toNat).toNat = v.toNat / 256 ∧
        (t.mem.readByte (a.toNat + 1)).toNat = v.toNat % 256 ∧ SameMemOutside a s t
    | none => t.mem = s.mem) ∧
  (∀ (i : Instr) (s t : State) (a : Word), exec i s = .next t → loadAddr s i = some a →
    a.toNat % 2 = 0 ∧ ∃ rd, destination i = some rd ∧ t.reg rd = wordAt s a.toNat) ∧
  (∀ (i : Instr) (s : State) (m : Memory), loadAddr s i = none → storeAddr s i = none →
    (∀ t, exec i s = .next t → exec i { s with mem := m } = .next { t with mem := m }) ∧
      (∀ f, exec i s = .fault f → exec i { s with mem := m } = .fault f)) ∧
  (∀ (i : Instr) (s t : State) (m : Memory), storeAddr s i ≠ none → exec i s = .next t →
    ∃ m', exec i { s with mem := m } = .next { t with mem := m' }) ∧
  (∀ (rd : Reg) (s t : State), (exec (.pshR rd) s = .next t ∨ exec (.pshI rd) s = .next t → t.sp.toNat = (s.sp.toNat + 65534) % 65536) ∧
    (exec (.popR rd) s = .next t ∨ exec (.popI rd) s = .next t → t.sp.toNat = (s.sp.toNat + 2) % 65536)) ∧
  (∀ (rd rs : Reg) (imm8 : Imm8) (s t : State),
    (exec (.wrmR rd rs) s = .next t ∨ exec (.wrmI rd imm8) s = .next t → SameRegs s t ∧ t.sp = s.sp) ∧
    (exec (.rdmR rd rs) s = .next t ∨ exec (.rdmI rd imm8) s = .next t → SameRegsBut rd s t ∧ t.sp = s.sp))

/-- Executing an instruction ends in a next state or in exactly the fault listed for it: an odd data address (D5, log 9), external
register number 3 or 6 (D16, log 18), MUL on a machine without it (D13, log 15). Nothing else stops an instruction. -/
def Obligations.InstructionsStopOnlyOnTheListedFaults : Prop :=
  ∀ (i : Instr) (s : State),
    (∀ f, exec i s = .fault f ↔ Raises s i f) ∧ ((¬ ∃ f, Raises s i f) → ∃ t, exec i s = .next t) ∧ ∀ r, exec i s ≠ .refused r

/-! ### Memory and the stack -/

/-- A word written at an even address is read back from it, its most significant byte at the lower address, and every other byte reads
as before; an odd address stops both ways, the spec's decision D5 (log 9). -/
def Obligations.MemoryReadsBackWhatWasWrittenBigEndian : Prop :=
  ∀ (a v : Word) (s : State),
    (a.toNat % 2 = 0 → ∃ t, memWrite a v s = .ok t ∧ memRead a t = .ok v ∧ memRead a s = .ok (wordAt s a.toNat) ∧
      (t.mem.readByte a.toNat).toNat = v.toNat / 256 ∧ (t.mem.readByte (a.toNat + 1)).toNat = v.toNat % 256 ∧
      SameMemOutside a s t ∧ t = { s with mem := t.mem }) ∧
    (a.toNat % 2 = 1 → memWrite a v s = .error (.unalignedAccess a) ∧ memRead a s = .error (.unalignedAccess a))

/-- PSH then POP copies one register to another and restores SP, in either format, at every even SP (at 0 by the wrap D23, log 23). -/
def Obligations.PopAfterPshCopiesAndRestoresSp : Prop :=
  ∀ (rd rd' : Reg) (s : State), s.sp.toNat % 2 = 0 →
    ∃ t u, exec (.pshR rd) s = .next t ∧ exec (.pshI rd) s = .next t ∧ exec (.popR rd') t = .next u ∧ exec (.popI rd') t = .next u ∧ u.reg rd' = s.reg rd ∧
      SameRegsBut rd' s u ∧ u.sp = s.sp ∧ SameMemOutside s.pushAddr s u

/-- A WRX to UI gives the next I-format instruction, whichever has an imm16, the high byte of it: MOV of any value in two instructions,
FL untouched, and every one as its R-format on a register with that value. After any instruction in between, its condition true or
false, that is no WRX to UI the high byte is 0 (after the HLT that halts by the spec's decision D22, log 22). -/
def Obligations.AWrxToUiGivesTheNextImmediateItsHighByte : Prop :=
  ∀ (hi lo : Imm8) (s : State), s.ui = 0#16 →
    ∃ t, exec (.wrxI .ui hi) s = .next t ∧ ImmediateActsAs (hi.toNat * 256 + lo.toNat) lo t ∧
      (∀ rd, ∃ u, exec (.movI rd lo) t = .next u ∧ (u.reg rd).toNat = hi.toNat * 256 + lo.toNat ∧ u.fl = s.fl ∧ u.ui = 0#16 ∧
        SameRegsBut rd s u) ∧
      ∀ (i : Instr) (n : State), exec i t = .next n → (∀ v, extWritten t i ≠ some (.ui, v)) →
        ImmediateActsAs lo.toNat lo n ∧ ∀ rd, ∃ x, exec (.movI rd lo) n = .next x ∧ (x.reg rd).toNat = lo.toNat

/-- A word stored over the next instruction, by WRM or PSH in either format, is what the next fetch reads: one memory for code and data
(D2, log 2) and a store visible to the next fetch (D20, log 21). PSH at SP = 0 stores at the top by the wrap D23 (log 23). -/
def Obligations.AStoreIsSeenByTheNextFetch : Prop :=
  ∀ (i : Instr) (s t : State) (a v : Word), s.ip.toNat + 1 < 0x8000 → storeAddr s i = some (a, v) →
    a.toNat = 2 * (s.ip.toNat + 1) → exec i s = .next t → fetch t = .ok v

/-! ### Reset and the invariant -/

/-- R22. After reset every general register is 0, whatever the implementation's parameters. -/
def Obligations.GeneralRegistersAreZeroAfterReset : Prop :=
  ∀ (m : Bool) (f : FlReset) (mem : Memory) (r : Reg), (State.resetWith m f mem).reg r = 0x0000#16

/-- The reset state for each value of the spec's arguments: FL one-hot, CF by the feature M, the rest 0, memory as supplied.
FL[15:3] zero is the spec's decision D10 (log 14), CF zero but for M is D12 (log 6). `State.reset` is the one with MUL, flag E and
empty memory: the model's choice (logs 3, 4, 5). -/
def Obligations.ResetIsAsTheSpecStates : Prop :=
  (∀ (m : Bool) (f : FlReset) (mem : Memory),
    let s := State.resetWith m f mem
    s.ip = 0#16 ∧ s.sp = 0#16 ∧ s.lr = 0#16 ∧ s.ui = 0#16 ∧ FlagsOneHot s ∧ s.fl.toNat / 8 = 0 ∧
      s.cf.toNat = m.toNat ∧ s.halted = false ∧ s.mem = mem) ∧
  (∃ f g h : FlReset, ∀ (m : Bool) (mem : Memory), (State.resetWith m f mem).fl = 0b001#16 ∧
    (State.resetWith m g mem).fl = 0b010#16 ∧ (State.resetWith m h mem).fl = 0b100#16) ∧
  State.reset = State.resetWith true .equal []

/-- Every reset state with a canonical memory meets the invariant; `State.reset`, the model's choice (logs 3, 4, 5), among them. FL[15:3]
zero is the spec's decision D10 (log 14), the legal values of CF are D12 (log 6). -/
def Obligations.ResetMeetsTheMachineInvariant : Prop :=
  (∀ (m : Bool) (f : FlReset) (mem : Memory), mem.wf = true → (State.resetWith m f mem).Inv) ∧ State.reset.Inv

/-- Headline: from EVERY state that meets it, a step keeps the invariant: memory in its canonical form, FL[15:3] zero (D10, log 14), CF
one of its two legal constants (D12, log 6). -/
def Obligations.EveryStepKeepsTheMachineInvariant : Prop :=
  ∀ s t : State, s.Inv → step s = .next t → t.Inv ∧ t.cf = s.cf
end

