-- ==== Sys2Proof/Laws/Bits.lean ====
section
/-! SUPPORT. Concatenation and bit fields as numbers, and bytes of a word. -/

namespace Sys2Proof

theorem append_toNat {n m : Nat} (x : BitVec n) (y : BitVec m) : (x ++ y).toNat = x.toNat * 2 ^ m + y.toNat := by
  rw [BitVec.toNat_append, ← Nat.shiftLeft_add_eq_or_of_lt y.isLt, Nat.shiftLeft_eq]

theorem extract_toNat {w : Nat} (x : BitVec w) (i n : Nat) : (x.extractLsb' i n).toNat = x.toNat / 2 ^ i % 2 ^ n := by
  rw [BitVec.extractLsb'_toNat, Nat.shiftRight_eq_div_pow]

theorem Word.ofBytes_toNat (hi lo : Byte) : (Word.ofBytes hi lo).toNat = hi.toNat * 256 + lo.toNat :=
  append_toNat hi lo

theorem Word.hiByte_toNat (w : Word) : w.hiByte.toNat = w.toNat / 256 := by
  rw [Word.hiByte, extract_toNat]
  omega

theorem Word.loByte_toNat (w : Word) : w.loByte.toNat = w.toNat % 256 := by
  rw [Word.loByte, extract_toNat]
  omega

@[simp] theorem Word.ofBytes_hi_lo (v : Word) : Word.ofBytes v.hiByte v.loByte = v := by
  apply BitVec.eq_of_toNat_eq
  rw [Word.ofBytes_toNat, Word.hiByte_toNat, Word.loByte_toNat]
  omega

@[simp] theorem Word.hiByte_ofBytes (hi lo : Byte) : (Word.ofBytes hi lo).hiByte = hi := by
  apply BitVec.eq_of_toNat_eq
  rw [Word.hiByte_toNat, Word.ofBytes_toNat]
  omega

@[simp] theorem Word.loByte_ofBytes (hi lo : Byte) : (Word.ofBytes hi lo).loByte = lo := by
  apply BitVec.eq_of_toNat_eq
  rw [Word.loByte_toNat, Word.ofBytes_toNat]
  omega

end Sys2Proof
end

