-- ==== Sys2Proof/Laws/Decode.lean ====
section
/-! SUPPORT. Register numbers and fields: each read gives back what the encoder put there (30_encoding.md R72, R73, R93). -/

namespace Sys2Proof

@[simp] theorem Reg.ofBits_toBits (r : Reg) : Reg.ofBits r.toBits = r := by
  cases r <;> rfl

@[simp] theorem Reg.toBits_ofBits (b : BitVec 3) : (Reg.ofBits b).toBits = b := by
  revert b
  decide

@[simp] theorem ExtReg.ofBits_toBits (e : ExtReg) : ExtReg.ofBits e.toBits = e := by
  cases e <;> rfl

@[simp] theorem ExtReg.toBits_ofBits (b : BitVec 3) : (ExtReg.ofBits b).toBits = b := by
  revert b
  decide

/-! ### Words as numbers -/

theorem encodeR_toNat (opcode : BitVec 5) (b c : BitVec 3) :
    (encodeR opcode b c).toNat = b.toNat * 256 + c.toNat * 32 + opcode.toNat := by
  have h : (encodeR opcode b c).toNat = ((0#5 ++ b) ++ (c ++ opcode)).toNat := rfl
  rw [h, append_toNat, append_toNat, append_toNat, BitVec.toNat_ofNat]
  ring

theorem encodeI_toNat (opcode : BitVec 5) (b : BitVec 3) (imm8 : Imm8) :
    (encodeI opcode b imm8).toNat = opcode.toNat * 2048 + b.toNat * 256 + imm8.toNat := by
  have h : (encodeI opcode b imm8).toNat = ((opcode ++ b) ++ imm8).toNat := rfl
  rw [h, append_toNat, append_toNat]
  ring

theorem topBits_toNat (w : Word) : (topBits w).toNat = w.toNat / 2048 := by
  rw [topBits, extract_toNat]
  omega

theorem fieldB_toNat (w : Word) : (fieldB w).toNat = w.toNat / 256 % 8 := extract_toNat w 8 3

theorem fieldC_toNat (w : Word) : (fieldC w).toNat = w.toNat / 32 % 8 := extract_toNat w 5 3

theorem lowBits_toNat (w : Word) : (lowBits w).toNat = w.toNat % 32 := by
  rw [lowBits, extract_toNat]
  omega

theorem fieldImm8_toNat (w : Word) : (fieldImm8 w).toNat = w.toNat % 256 := by
  rw [fieldImm8, extract_toNat]
  omega

theorem imm4Of_eq (imm8 : Imm8) : imm4Of imm8 = imm8.toNat % 16 := by
  rw [imm4Of, extract_toNat]
  omega

/-! ### Fields of an R-format word -/

section
variable (opcode : BitVec 5) (b c : BitVec 3) (imm8 : Imm8)

@[simp] theorem topBits_encodeR : topBits (encodeR opcode b c) = 0#5 := by
  apply BitVec.eq_of_toNat_eq
  have h0 : (0#5).toNat = 0 := rfl
  rw [topBits_toNat, encodeR_toNat]
  omega

@[simp] theorem fieldB_encodeR : fieldB (encodeR opcode b c) = b := by
  apply BitVec.eq_of_toNat_eq
  rw [fieldB_toNat, encodeR_toNat]
  omega

@[simp] theorem fieldC_encodeR : fieldC (encodeR opcode b c) = c := by
  apply BitVec.eq_of_toNat_eq
  rw [fieldC_toNat, encodeR_toNat]
  omega

@[simp] theorem lowBits_encodeR : lowBits (encodeR opcode b c) = opcode := by
  apply BitVec.eq_of_toNat_eq
  rw [lowBits_toNat, encodeR_toNat]
  omega

/-! ### Fields of an I-format word -/

@[simp] theorem topBits_encodeI : topBits (encodeI opcode b imm8) = opcode := by
  apply BitVec.eq_of_toNat_eq
  rw [topBits_toNat, encodeI_toNat]
  omega

@[simp] theorem fieldB_encodeI : fieldB (encodeI opcode b imm8) = b := by
  apply BitVec.eq_of_toNat_eq
  rw [fieldB_toNat, encodeI_toNat]
  omega

@[simp] theorem fieldImm8_encodeI : fieldImm8 (encodeI opcode b imm8) = imm8 := by
  apply BitVec.eq_of_toNat_eq
  rw [fieldImm8_toNat, encodeI_toNat]
  omega

/-- The decoder on an encoded R-format word. -/
theorem decode_encodeR : decode (encodeR opcode b c) = decodeR opcode b c := by
  simp [decode]

/-- The decoder on an encoded I-format word, whose opcode is not 0 (30_encoding.md R74). -/
theorem decode_encodeI (h : opcode ≠ 0#5) : decode (encodeI opcode b imm8) = decodeI opcode b imm8 := by
  simp [decode, h]

end

/-- Every word is the R-format word or the I-format word of its own fields (30_encoding.md R74). -/
theorem word_eq_encode (w : Word) :
    w = if topBits w = 0#5 then encodeR (lowBits w) (fieldB w) (fieldC w) else encodeI (topBits w) (fieldB w) (fieldImm8 w) := by
  apply BitVec.eq_of_toNat_eq
  split
  · rename_i h
    have h := congrArg BitVec.toNat h
    have h0 : (0#5).toNat = 0 := rfl
    rw [topBits_toNat] at h
    rw [encodeR_toNat, lowBits_toNat, fieldB_toNat, fieldC_toNat]
    omega
  · rw [encodeI_toNat, topBits_toNat, fieldB_toNat, fieldImm8_toNat]
    omega

/-- What an instruction word, laid out as the hardware stores it, decodes to. -/
theorem decodeTableWord_eq_some {nbits w : Nat} {i : Instr} :
    decodeTableWord nbits w = some i ↔ decode (tableWord nbits w) = .instr i := by
  simp only [decodeTableWord, decodeBytes, Word.ofBytes_hi_lo]
  cases decode (tableWord nbits w) <;> simp

end Sys2Proof
end

