-- ==== Sys2Proof/Laws/Memory.lean ====
section
/-! SUPPORT. Memory: what a read sees after a write, and that writes keep the canonical form (20_memory.md R52, R59). -/

namespace Sys2Proof.Machine

/-! ### One byte -/

theorem Memory.readByte_eraseByte (m : Memory) (a b : Nat) :
    (m.eraseByte a).readByte b = if b = a then Memory.blank else m.readByte b := by
  induction m with
  | nil => simp [Memory.eraseByte, Memory.readByte]
  | cons c m ih =>
    obtain ⟨k, v⟩ := c
    simp only [Memory.eraseByte] at ih ⊢
    by_cases hk : k = a
    · subst hk
      simp only [List.filter_cons, ne_eq, not_true, decide_false, Bool.false_eq_true, if_false, ih, Memory.readByte]
      split
      · rfl
      · rw [if_neg (by omega)]
    · simp only [List.filter_cons, ne_eq, hk, not_false_iff, decide_true, if_true, Memory.readByte, ih]
      split
      · rw [if_neg (by omega)]
      · rfl

theorem Memory.readByte_placeByte (m : Memory) (a b : Nat) (v : Byte) (ha : ∀ c ∈ m, c.1 ≠ a) :
    (m.placeByte a v).readByte b = if b = a then v else m.readByte b := by
  induction m with
  | nil =>
    simp only [Memory.placeByte, Memory.readByte, eq_comm]
  | cons c m ih =>
    obtain ⟨k, w⟩ := c
    have hk : k ≠ a := ha (k, w) (by simp)
    simp only [Memory.placeByte]
    split
    · simp only [Memory.readByte, eq_comm]
    · simp only [Memory.readByte, ih fun c hc => ha c (by simp [hc])]
      split
      · rw [if_neg (by omega)]
      · rfl

/-- A read after a write: the written byte at its address, every other byte as before. -/
theorem Memory.readByte_writeByte (m : Memory) (a b : Nat) (v : Byte) :
    (m.writeByte a v).readByte b = if b = a then v else m.readByte b := by
  simp only [Memory.writeByte]
  split
  · subst_vars
    exact Memory.readByte_eraseByte m a b
  · rw [Memory.readByte_placeByte _ _ _ _ (by simp [Memory.eraseByte]), Memory.readByte_eraseByte]
    split <;> rfl

/-! ### One word -/

theorem Memory.readByte_writeWord (m : Memory) (a b : Nat) (v : Word) :
    (m.writeWord a v).readByte b = if b = a then v.hiByte else if b = a + 1 then v.loByte else m.readByte b := by
  simp only [Memory.writeWord, Memory.readByte_writeByte]
  by_cases h : b = a
  · subst h
    simp
  · simp [h]

@[simp] theorem Memory.readWord_writeWord (m : Memory) (a : Nat) (v : Word) : (m.writeWord a v).readWord a = v := by
  simp [Memory.readWord, Memory.readByte_writeWord]

/-! ### The canonical form -/

theorem Memory.wfAbove_mono {m : Memory} {low low' : Nat} (h : m.wfAbove low = true) (hl : low' ≤ low) :
    m.wfAbove low' = true := by
  cases m with
  | nil => rfl
  | cons c m =>
    simp only [Memory.wfAbove, Bool.and_eq_true, decide_eq_true_eq] at h ⊢
    exact ⟨⟨⟨by omega, h.1.1.2⟩, h.1.2⟩, h.2⟩

theorem Memory.wfAbove_eraseByte {m : Memory} {low : Nat} (a : Nat) (h : m.wfAbove low = true) :
    (m.eraseByte a).wfAbove low = true := by
  induction m generalizing low with
  | nil => exact h
  | cons c m ih =>
    obtain ⟨k, v⟩ := c
    simp only [Memory.wfAbove, Bool.and_eq_true, decide_eq_true_eq] at h
    have hm := ih h.2
    simp only [Memory.eraseByte] at hm ⊢
    by_cases hk : k = a
    · simpa [List.filter_cons, hk] using Memory.wfAbove_mono hm (by omega)
    · rw [List.filter_cons_of_pos (by simpa using hk)]
      simp only [Memory.wfAbove, hm, h.1.1.1, h.1.1.2, h.1.2, ne_eq, not_false_iff, decide_true, Bool.and_true]

theorem Memory.wfAbove_placeByte {m : Memory} {low a : Nat} {v : Byte} (h : m.wfAbove low = true) (hl : low ≤ a)
    (ha : a < Memory.size) (hv : v ≠ Memory.blank) (hn : ∀ c ∈ m, c.1 ≠ a) : (m.placeByte a v).wfAbove low = true := by
  induction m generalizing low with
  | nil => simp [Memory.placeByte, Memory.wfAbove, hl, ha, hv]
  | cons c m ih =>
    obtain ⟨k, w⟩ := c
    have hk : k ≠ a := hn (k, w) (by simp)
    simp only [Memory.wfAbove, Bool.and_eq_true, decide_eq_true_eq] at h
    simp only [Memory.placeByte]
    split
    · simp [Memory.wfAbove, hl, ha, hv, h]
      omega
    · have := ih h.2 (by omega) fun c hc => hn c (by simp [hc])
      simp [Memory.wfAbove, h, this]

/-- A write to an address of the memory keeps the canonical form. -/
theorem Memory.wf_writeByte {m : Memory} (h : m.wf = true) {a : Nat} (ha : a < Memory.size) (v : Byte) :
    (m.writeByte a v).wf = true := by
  simp only [Memory.wf, Memory.writeByte] at h ⊢
  split
  · exact Memory.wfAbove_eraseByte a h
  · exact Memory.wfAbove_placeByte (Memory.wfAbove_eraseByte a h) (Nat.zero_le a) ha ‹_› (by simp [Memory.eraseByte])

theorem Memory.wf_writeWord {m : Memory} (h : m.wf = true) {a : Nat} (ha : a + 1 < Memory.size) (v : Word) :
    (m.writeWord a v).wf = true :=
  Memory.wf_writeByte (Memory.wf_writeByte h (by omega) _) ha _

end Sys2Proof.Machine
end

