-- ==== Sys2Proof/Laws/State.lean ====
section
/-! SUPPORT. What each update of the state leaves in each field. -/

namespace Sys2Proof.Machine

/-! ### setReg -/

@[simp] theorem State.setReg_regs (s : State) (r : Reg) (v : Word) : (s.setReg r v).regs = s.regs.set r v := rfl
@[simp] theorem State.setReg_ip (s : State) (r : Reg) (v : Word) : (s.setReg r v).ip = s.ip := rfl
@[simp] theorem State.setReg_sp (s : State) (r : Reg) (v : Word) : (s.setReg r v).sp = s.sp := rfl
@[simp] theorem State.setReg_lr (s : State) (r : Reg) (v : Word) : (s.setReg r v).lr = s.lr := rfl
@[simp] theorem State.setReg_ui (s : State) (r : Reg) (v : Word) : (s.setReg r v).ui = s.ui := rfl
@[simp] theorem State.setReg_fl (s : State) (r : Reg) (v : Word) : (s.setReg r v).fl = s.fl := rfl
@[simp] theorem State.setReg_cf (s : State) (r : Reg) (v : Word) : (s.setReg r v).cf = s.cf := rfl
@[simp] theorem State.setReg_halted (s : State) (r : Reg) (v : Word) : (s.setReg r v).halted = s.halted := rfl
@[simp] theorem State.setReg_mem (s : State) (r : Reg) (v : Word) : (s.setReg r v).mem = s.mem := rfl
@[simp] theorem State.setReg_draws (s : State) (r : Reg) (v : Word) : (s.setReg r v).draws = s.draws := rfl

/-! ### endCycle -/

@[simp] theorem State.endCycle_regs (s : State) (newIp newUi : Word) : (s.endCycle newIp newUi).regs = s.regs := rfl
@[simp] theorem State.endCycle_ip (s : State) (newIp newUi : Word) : (s.endCycle newIp newUi).ip = newIp := rfl
@[simp] theorem State.endCycle_sp (s : State) (newIp newUi : Word) : (s.endCycle newIp newUi).sp = s.sp := rfl
@[simp] theorem State.endCycle_lr (s : State) (newIp newUi : Word) : (s.endCycle newIp newUi).lr = s.lr := rfl
@[simp] theorem State.endCycle_ui (s : State) (newIp newUi : Word) : (s.endCycle newIp newUi).ui = newUi := rfl
@[simp] theorem State.endCycle_fl (s : State) (newIp newUi : Word) : (s.endCycle newIp newUi).fl = s.fl := rfl
@[simp] theorem State.endCycle_cf (s : State) (newIp newUi : Word) : (s.endCycle newIp newUi).cf = s.cf := rfl
@[simp] theorem State.endCycle_halted (s : State) (newIp newUi : Word) : (s.endCycle newIp newUi).halted = s.halted := rfl
@[simp] theorem State.endCycle_mem (s : State) (newIp newUi : Word) : (s.endCycle newIp newUi).mem = s.mem := rfl
@[simp] theorem State.endCycle_draws (s : State) (newIp newUi : Word) : (s.endCycle newIp newUi).draws = s.draws := rfl

/-! ### advance -/

@[simp] theorem State.advance_regs (s : State) : s.advance.regs = s.regs := rfl
@[simp] theorem State.advance_ip (s : State) : s.advance.ip = s.ipIn := rfl
@[simp] theorem State.advance_sp (s : State) : s.advance.sp = s.sp := rfl
@[simp] theorem State.advance_lr (s : State) : s.advance.lr = s.lr := rfl
@[simp] theorem State.advance_ui (s : State) : s.advance.ui = 0#16 := rfl
@[simp] theorem State.advance_fl (s : State) : s.advance.fl = s.fl := rfl
@[simp] theorem State.advance_cf (s : State) : s.advance.cf = s.cf := rfl
@[simp] theorem State.advance_halted (s : State) : s.advance.halted = s.halted := rfl
@[simp] theorem State.advance_mem (s : State) : s.advance.mem = s.mem := rfl
@[simp] theorem State.advance_draws (s : State) : s.advance.draws = s.draws := rfl

/-! ### jumpTo -/

@[simp] theorem State.jumpTo_regs (s : State) (target : Word) : (s.jumpTo target).regs = s.regs := rfl
@[simp] theorem State.jumpTo_ip (s : State) (target : Word) : (s.jumpTo target).ip = target := rfl
@[simp] theorem State.jumpTo_sp (s : State) (target : Word) : (s.jumpTo target).sp = s.sp := rfl
@[simp] theorem State.jumpTo_lr (s : State) (target : Word) : (s.jumpTo target).lr = s.lr := rfl
@[simp] theorem State.jumpTo_ui (s : State) (target : Word) : (s.jumpTo target).ui = 0#16 := rfl
@[simp] theorem State.jumpTo_fl (s : State) (target : Word) : (s.jumpTo target).fl = s.fl := rfl
@[simp] theorem State.jumpTo_cf (s : State) (target : Word) : (s.jumpTo target).cf = s.cf := rfl
@[simp] theorem State.jumpTo_halted (s : State) (target : Word) : (s.jumpTo target).halted = s.halted := rfl
@[simp] theorem State.jumpTo_mem (s : State) (target : Word) : (s.jumpTo target).mem = s.mem := rfl
@[simp] theorem State.jumpTo_draws (s : State) (target : Word) : (s.jumpTo target).draws = s.draws := rfl

/-! ### putFlags -/

@[simp] theorem State.putFlags_regs (s : State) (f : BitVec 3) : (s.putFlags f).regs = s.regs := rfl
@[simp] theorem State.putFlags_ip (s : State) (f : BitVec 3) : (s.putFlags f).ip = s.ip := rfl
@[simp] theorem State.putFlags_sp (s : State) (f : BitVec 3) : (s.putFlags f).sp = s.sp := rfl
@[simp] theorem State.putFlags_lr (s : State) (f : BitVec 3) : (s.putFlags f).lr = s.lr := rfl
@[simp] theorem State.putFlags_ui (s : State) (f : BitVec 3) : (s.putFlags f).ui = s.ui := rfl
@[simp] theorem State.putFlags_fl (s : State) (f : BitVec 3) : (s.putFlags f).fl = s.fl.extractLsb' 3 13 ++ f := rfl
@[simp] theorem State.putFlags_cf (s : State) (f : BitVec 3) : (s.putFlags f).cf = s.cf := rfl
@[simp] theorem State.putFlags_halted (s : State) (f : BitVec 3) : (s.putFlags f).halted = s.halted := rfl
@[simp] theorem State.putFlags_mem (s : State) (f : BitVec 3) : (s.putFlags f).mem = s.mem := rfl
@[simp] theorem State.putFlags_draws (s : State) (f : BitVec 3) : (s.putFlags f).draws = s.draws := rfl

/-! ### setFlags -/

@[simp] theorem State.setFlags_regs (s : State) (r : Word) : (s.setFlags r).regs = s.regs := rfl
@[simp] theorem State.setFlags_ip (s : State) (r : Word) : (s.setFlags r).ip = s.ip := rfl
@[simp] theorem State.setFlags_sp (s : State) (r : Word) : (s.setFlags r).sp = s.sp := rfl
@[simp] theorem State.setFlags_lr (s : State) (r : Word) : (s.setFlags r).lr = s.lr := rfl
@[simp] theorem State.setFlags_ui (s : State) (r : Word) : (s.setFlags r).ui = s.ui := rfl
@[simp] theorem State.setFlags_fl (s : State) (r : Word) : (s.setFlags r).fl = s.fl.extractLsb' 3 13 ++ flagsOf r := rfl
@[simp] theorem State.setFlags_cf (s : State) (r : Word) : (s.setFlags r).cf = s.cf := rfl
@[simp] theorem State.setFlags_halted (s : State) (r : Word) : (s.setFlags r).halted = s.halted := rfl
@[simp] theorem State.setFlags_mem (s : State) (r : Word) : (s.setFlags r).mem = s.mem := rfl
@[simp] theorem State.setFlags_draws (s : State) (r : Word) : (s.setFlags r).draws = s.draws := rfl

/-! ### afterTest -/

@[simp] theorem State.afterTest_regs (s : State) (ccc : CondMask) : (s.afterTest ccc).regs = s.regs := rfl
@[simp] theorem State.afterTest_ip (s : State) (ccc : CondMask) : (s.afterTest ccc).ip = s.ip := rfl
@[simp] theorem State.afterTest_sp (s : State) (ccc : CondMask) : (s.afterTest ccc).sp = s.sp := rfl
@[simp] theorem State.afterTest_lr (s : State) (ccc : CondMask) : (s.afterTest ccc).lr = s.lr := rfl
@[simp] theorem State.afterTest_ui (s : State) (ccc : CondMask) : (s.afterTest ccc).ui = s.ui := rfl
@[simp] theorem State.afterTest_fl (s : State) (ccc : CondMask) : (s.afterTest ccc).fl = s.fl := rfl
@[simp] theorem State.afterTest_cf (s : State) (ccc : CondMask) : (s.afterTest ccc).cf = s.cf := rfl
@[simp] theorem State.afterTest_halted (s : State) (ccc : CondMask) : (s.afterTest ccc).halted = s.halted := rfl
@[simp] theorem State.afterTest_mem (s : State) (ccc : CondMask) : (s.afterTest ccc).mem = s.mem := rfl
@[simp] theorem State.afterTest_draws (s : State) (ccc : CondMask) : (s.afterTest ccc).draws = if condLoose ccc s.flags then s.draws + 1 else s.draws := rfl

/-! ### Registers -/

@[simp] theorem RegFile.get_set_same (f : RegFile) (r : Reg) (v : Word) : (f.set r v).get r = v := by
  cases r <;> rfl

theorem RegFile.get_set_other (f : RegFile) {r q : Reg} (v : Word) (h : q ≠ r) : (f.set r v).get q = f.get q := by
  cases r <;> cases q <;> first | rfl | exact absurd rfl h

@[simp] theorem State.reg_setReg_same (s : State) (r : Reg) (v : Word) : (s.setReg r v).reg r = v :=
  RegFile.get_set_same s.regs r v

theorem State.reg_setReg_other (s : State) {r q : Reg} (v : Word) (h : q ≠ r) : (s.setReg r v).reg q = s.reg q :=
  RegFile.get_set_other s.regs v h

/-- A register read sees only the register file. -/
theorem State.reg_congr {s t : State} (h : t.regs = s.regs) (r : Reg) : t.reg r = s.reg r := by
  simp [State.reg, h]

@[simp] theorem State.reg_endCycle (s : State) (ip ui : Word) (r : Reg) : (s.endCycle ip ui).reg r = s.reg r := rfl

@[simp] theorem State.reg_advance (s : State) (r : Reg) : s.advance.reg r = s.reg r := rfl

@[simp] theorem State.reg_jumpTo (s : State) (target : Word) (r : Reg) : (s.jumpTo target).reg r = s.reg r := rfl

@[simp] theorem State.reg_putFlags (s : State) (f : BitVec 3) (r : Reg) : (s.putFlags f).reg r = s.reg r := rfl

@[simp] theorem State.reg_setFlags (s : State) (v : Word) (r : Reg) : (s.setFlags v).reg r = s.reg r := rfl

@[simp] theorem State.reg_afterTest (s : State) (ccc : CondMask) (r : Reg) : (s.afterTest ccc).reg r = s.reg r := rfl

@[simp] theorem State.reg_mem (s : State) (m : Memory) (r : Reg) : ({ s with mem := m } : State).reg r = s.reg r := rfl

/-! ### IP and reads that see one field -/

/-- `ip_in` as a number (10_state.md R26). -/
@[simp] theorem State.ipIn_toNat (s : State) : s.ipIn.toNat = (s.ip.toNat + 1) % 65536 := by
  simp [State.ipIn]

@[simp] theorem State.ipIn_afterTest (s : State) (ccc : CondMask) : (s.afterTest ccc).ipIn = s.ipIn := rfl

@[simp] theorem State.flags_afterTest (s : State) (ccc : CondMask) : (s.afterTest ccc).flags = s.flags := rfl

end Sys2Proof.Machine
end

