-- ==== Sys2Proof/Laws/Ops.lean ====
section
/-! SUPPORT. One lemma per shared operation: everything it can do. -/

namespace Sys2Proof.Machine

/-! ### Faults -/

theorem orRaise_eq_next {α : Type} {x : Except Fault α} {k : α → State} {t : State} :
    orRaise x k = .next t ↔ ∃ a, x = .ok a ∧ t = k a := by
  cases x <;> simp [orRaise, raise, eq_comm]

theorem orRaise_eq_fault {α : Type} {x : Except Fault α} {k : α → State} {f : Fault} :
    orRaise x k = .fault f ↔ x = .error f := by
  cases x <;> simp [orRaise, raise]

theorem orRaise_ne_refused {α : Type} (x : Except Fault α) (k : α → State) (r : Refusal) : orRaise x k ≠ .refused r := by
  cases x <;> simp [orRaise, raise]

/-! ### Memory accesses -/

theorem aligned_iff (a : Word) : aligned a = true ↔ a.toNat % 2 = 0 := by
  have : a.getLsbD 0 = decide (a.toNat % 2 = 1) := by
    simp [BitVec.getLsbD, Nat.testBit_zero]
  rw [aligned, this]
  simp

theorem memRead_eq_ok {a v : Word} {s : State} :
    memRead a s = .ok v ↔ a.toNat % 2 = 0 ∧ v = s.mem.readWord a.toNat := by
  rw [← aligned_iff]
  by_cases h : aligned a <;> simp [memRead, h, eq_comm]

theorem memRead_eq_error {a : Word} {s : State} {f : Fault} :
    memRead a s = .error f ↔ a.toNat % 2 = 1 ∧ f = .unalignedAccess a := by
  have := aligned_iff a
  by_cases h : aligned a <;> simp [memRead, h, eq_comm] at * <;> omega

theorem memWrite_eq_ok {a v : Word} {s t : State} :
    memWrite a v s = .ok t ↔ a.toNat % 2 = 0 ∧ t = { s with mem := s.mem.writeWord a.toNat v } := by
  rw [← aligned_iff]
  by_cases h : aligned a <;> simp [memWrite, h, eq_comm]

theorem memWrite_eq_error {a v : Word} {s : State} {f : Fault} :
    memWrite a v s = .error f ↔ a.toNat % 2 = 1 ∧ f = .unalignedAccess a := by
  have := aligned_iff a
  by_cases h : aligned a <;> simp [memWrite, h, eq_comm] at * <;> omega

/-- A store keeps the canonical form of memory. -/
theorem memWrite_wf {a v : Word} {s t : State} (h : memWrite a v s = .ok t) (hw : s.mem.wf = true) : t.mem.wf = true := by
  obtain ⟨he, rfl⟩ := memWrite_eq_ok.mp h
  exact Memory.wf_writeWord hw (by have := a.isLt; simp only [Memory.size]; omega) v

/-- The value read is the two bytes as one number, the first one high (20_memory.md R52). -/
theorem readWord_eq_wordAt (s : State) (a : Nat) : s.mem.readWord a = wordAt s a := by
  apply BitVec.eq_of_toNat_eq
  rw [Memory.readWord, Word.ofBytes_toNat, wordAt, BitVec.toNat_ofNat]
  omega

/-! ### Operands -/

/-- The immediate operand is imm16 (30_encoding.md R78). -/
theorem immOperand_eq_imm16 (imm8 : Imm8) (s : State) : immOperand imm8 s = imm16 imm8 s := by
  apply BitVec.eq_of_toNat_eq
  rw [immOperand, Word.ofBytes_toNat, Word.loByte_toNat, imm16, BitVec.toNat_ofNat]
  omega

theorem regAmount_eq (rs : Reg) (s : State) : regAmount rs s = (s.reg rs).toNat % 16 := by
  rw [regAmount, extract_toNat]
  omega

theorem pushAddr_toNat (s : State) : s.pushAddr.toNat = (s.sp.toNat + 65534) % 65536 := by
  simp only [State.pushAddr, BitVec.toNat_sub, BitVec.toNat_ofNat]
  omega

theorem popSp_toNat (s : State) : s.popSp.toNat = (s.sp.toNat + 2) % 65536 := by
  simp [State.popSp]

/-- Reading an external register stops only on the numbers that carry none (10_state.md R39). -/
theorem readExt_spec (es : ExtReg) (s : State) :
    readExt es s = if es = .e3 ∨ es = .e6 then .error (.reservedExternalRegister es.toBits) else .ok (extValue es s) := by
  cases es <;> simp [readExt, extValue]
  · apply BitVec.eq_of_toNat_eq
    simp
  · apply BitVec.eq_of_toNat_eq
    simp

/-! ### Flags -/

/-- FL as a number after a write of FL[2:0] (10_state.md R33, R35). -/
theorem putFlags_fl_toNat (s : State) (f : BitVec 3) : (s.putFlags f).fl.toNat = s.fl.toNat / 8 * 8 + f.toNat := by
  have h := append_toNat (s.fl.extractLsb' 3 13) f
  rw [extract_toNat] at h
  have := s.fl.isLt
  simp only [State.putFlags_fl]
  omega

theorem flagsOf_toNat (r : Word) :
    (flagsOf r).toNat = if r.toNat = 0 then 2 else if r.toNat < 32768 then 1 else 4 := by
  have hz : (r = 0#16) ↔ r.toNat = 0 := ⟨fun h => by simp [h], fun h => BitVec.eq_of_toNat_eq (by simpa using h)⟩
  by_cases h0 : r = 0#16
  · subst h0
    rfl
  · by_cases h1 : r.toNat < 32768
    · have hm : r.msb = false := by simp [BitVec.msb_eq_decide]; omega
      simp [flagsOf, h0, hm, h1, hz.not.mp h0]
    · have hm : r.msb = true := by simp [BitVec.msb_eq_decide]; omega
      simp [flagsOf, h0, hm, h1, hz.not.mp h0]

/-- `SetFlags` in the terms of the statements (10_state.md R33). -/
theorem setFlags_shows (r : Word) (s : State) : FlagsShow r s (s.setFlags r) := by
  have h := putFlags_fl_toNat s (flagsOf r)
  have hf := (flagsOf r).isLt
  have := flagsOf_toNat r
  simp only [State.setFlags, FlagsShow]
  constructor <;> omega

theorem flags_toNat (s : State) : s.flags.toNat = s.fl.toNat % 8 := by
  rw [State.flags, extract_toNat]
  omega

/-- The model's test of one-hot flags is the spec's (10_state.md R36). -/
theorem oneHot_iff (s : State) : oneHot s.flags = true ↔ FlagsOneHot s := by
  have h : ∀ n : Nat, n < 8 → (s.flags = BitVec.ofNat 3 n ↔ s.fl.toNat % 8 = n) := fun n hn => by
    rw [← flags_toNat, ← BitVec.toNat_inj, BitVec.toNat_ofNat, Nat.mod_eq_of_lt hn]
  simp [oneHot, FlagsOneHot, h, or_assoc]

/-! ### Conditional actions -/

/-- A conditional instruction always completes: it acts or it ends its cycle by default. -/
theorem conditionally_eq_next {ccc : CondMask} {act : State → State} {s t : State} :
    conditionally ccc act s = .next t ↔
      (condHolds ccc s = true ∧ t = act (s.afterTest ccc)) ∨ (condHolds ccc s = false ∧ t = (s.afterTest ccc).advance) := by
  cases h : condHolds ccc s <;> simp [conditionally, h, eq_comm]

/-! ### Fetch -/

theorem fetch_eq_ok {s : State} {bits : Word} :
    fetch s = .ok bits ↔ s.ip.toNat < 32768 ∧ bits = s.mem.readWord (2 * s.ip.toNat) := by
  by_cases h : s.ip.toNat < 32768 <;> simp [fetch, fetchAddr, h, eq_comm]

/-- What the step runs: the word at IP, if it is in range and no reserved word. -/
theorem fetchInstr_eq_ok {s : State} {i : Instr} :
    fetchInstr s = .ok i ↔ s.ip.toNat < 32768 ∧ decode (wordAt s (2 * s.ip.toNat)) = .instr i := by
  rw [← readWord_eq_wordAt]
  by_cases h : s.ip.toNat < 32768
  · cases hd : decode (s.mem.readWord (2 * s.ip.toNat)) <;> simp [fetchInstr, fetch, fetchAddr, h, hd]
  · simp [fetchInstr, fetch, h]

/-- A step, once the instruction at IP is known. -/
theorem step_of_fetchInstr {s : State} {i : Instr} (hh : s.halted = false) (hf : fetchInstr s = .ok i) : step s = exec i s := by
  simp [step, hh, hf]

/-- The next step after placing a word runs exactly the instruction the decoder reads from it. -/
theorem step_withFetchWord {s : State} {nbits w : Nat} {i : Instr} (h : decodeTableWord nbits w = some i) :
    step (s.withFetchWord nbits w) = exec i (s.withFetchWord nbits w) := by
  have hip : (s.ip &&& 0x7FFF#16).toNat < 32768 := by
    have h : (s.ip &&& 0x7FFF#16).toNat = s.ip.toNat &&& 32767 := rfl
    have := Nat.and_le_right (n := s.ip.toNat) (m := 32767)
    omega
  refine step_of_fetchInstr rfl (fetchInstr_eq_ok.mpr ⟨hip, ?_⟩)
  rw [← readWord_eq_wordAt]
  simpa [State.withFetchWord, placeAtIp, fetchAddr] using decodeTableWord_eq_some.mp h

end Sys2Proof.Machine
end

