-- ==== Sys2Proof/Laws/PerInstr.lean ====
section
/-! SUPPORT. Laws of every instruction as syntax, one lemma per constructor. -/

namespace Sys2Proof.Laws.EncodedOpcode

/-- The opcode number of a row of spec/opcode_table.json, under its format (30_encoding.md R75, R76). -/
inductive Place where
  | rFormat (opcode : BitVec 5)
  | iFormat (opcode : BitVec 5)

/-- The format and opcode number of each constructor. -/
def place : Instr → Place
  | .nop => .rFormat 0x00#5
  | .hltR _ => .rFormat 0x01#5
  | .hltI _ => .iFormat 0x01#5
  | .movR _ _ => .rFormat 0x05#5
  | .movI _ _ => .iFormat 0x05#5
  | .rdmR _ _ => .rFormat 0x06#5
  | .rdmI _ _ => .iFormat 0x06#5
  | .wrmR _ _ => .rFormat 0x07#5
  | .wrmI _ _ => .iFormat 0x07#5
  | .rdxR _ _ => .rFormat 0x0C#5
  | .wrxR _ _ => .rFormat 0x0D#5
  | .wrxI _ _ => .iFormat 0x0D#5
  | .pshR _ => .rFormat 0x0E#5
  | .pshI _ => .iFormat 0x0E#5
  | .popR _ => .rFormat 0x0F#5
  | .popI _ => .iFormat 0x0F#5
  | .mulR _ _ => .rFormat 0x10#5
  | .mulI _ _ => .iFormat 0x10#5
  | .cmpR _ _ => .rFormat 0x11#5
  | .cmpI _ _ => .iFormat 0x11#5
  | .tstR _ _ => .rFormat 0x13#5
  | .tstI _ _ => .iFormat 0x13#5
  | .jmpR _ _ => .rFormat 0x14#5
  | .jmpI _ _ => .iFormat 0x14#5
  | .calR _ _ => .rFormat 0x15#5
  | .calI _ _ => .iFormat 0x15#5
  | .retR _ => .rFormat 0x16#5
  | .retI _ => .iFormat 0x16#5
  | .addR _ _ => .rFormat 0x18#5
  | .addI _ _ => .iFormat 0x18#5
  | .subR _ _ => .rFormat 0x19#5
  | .subI _ _ => .iFormat 0x19#5
  | .notR _ _ => .rFormat 0x1A#5
  | .notI _ _ => .iFormat 0x1A#5
  | .andR _ _ => .rFormat 0x1B#5
  | .andI _ _ => .iFormat 0x1B#5
  | .orrR _ _ => .rFormat 0x1C#5
  | .orrI _ _ => .iFormat 0x1C#5
  | .xorR _ _ => .rFormat 0x1D#5
  | .xorI _ _ => .iFormat 0x1D#5
  | .sllR _ _ => .rFormat 0x1E#5
  | .sllI _ _ => .iFormat 0x1E#5
  | .slrR _ _ => .rFormat 0x1F#5
  | .slrI _ _ => .iFormat 0x1F#5

/-- An encoded instruction has its opcode number where its format puts it: bits 4:0 under zero bits 15:11, or a non-zero bits 15:11
(30_encoding.md R72, R73, R74). -/
def Statement (i : Instr) : Prop :=
  match place i with
  | .rFormat opcode => topBits (encode i) = 0#5 ∧ lowBits (encode i) = opcode
  | .iFormat opcode => topBits (encode i) = opcode ∧ opcode ≠ 0#5

theorem nop : Statement (.nop) := ⟨topBits_encodeR _ _ _, lowBits_encodeR _ _ _⟩

theorem hltR (ccc : CondMask) : Statement (.hltR ccc) := ⟨topBits_encodeR _ _ _, lowBits_encodeR _ _ _⟩

theorem hltI (ccc : CondMask) : Statement (.hltI ccc) := ⟨topBits_encodeI _ _ _, by decide⟩

theorem movR (rd rs : Reg) : Statement (.movR rd rs) := ⟨topBits_encodeR _ _ _, lowBits_encodeR _ _ _⟩

theorem movI (rd : Reg) (imm8 : Imm8) : Statement (.movI rd imm8) := ⟨topBits_encodeI _ _ _, by decide⟩

theorem rdmR (rd rs : Reg) : Statement (.rdmR rd rs) := ⟨topBits_encodeR _ _ _, lowBits_encodeR _ _ _⟩

theorem rdmI (rd : Reg) (imm8 : Imm8) : Statement (.rdmI rd imm8) := ⟨topBits_encodeI _ _ _, by decide⟩

theorem wrmR (rd rs : Reg) : Statement (.wrmR rd rs) := ⟨topBits_encodeR _ _ _, lowBits_encodeR _ _ _⟩

theorem wrmI (rd : Reg) (imm8 : Imm8) : Statement (.wrmI rd imm8) := ⟨topBits_encodeI _ _ _, by decide⟩

theorem rdxR (rd : Reg) (es : ExtReg) : Statement (.rdxR rd es) := ⟨topBits_encodeR _ _ _, lowBits_encodeR _ _ _⟩

theorem wrxR (ed : ExtReg) (rs : Reg) : Statement (.wrxR ed rs) := ⟨topBits_encodeR _ _ _, lowBits_encodeR _ _ _⟩

theorem wrxI (ed : ExtReg) (imm8 : Imm8) : Statement (.wrxI ed imm8) := ⟨topBits_encodeI _ _ _, by decide⟩

theorem pshR (rd : Reg) : Statement (.pshR rd) := ⟨topBits_encodeR _ _ _, lowBits_encodeR _ _ _⟩

theorem pshI (rd : Reg) : Statement (.pshI rd) := ⟨topBits_encodeI _ _ _, by decide⟩

theorem popR (rd : Reg) : Statement (.popR rd) := ⟨topBits_encodeR _ _ _, lowBits_encodeR _ _ _⟩

theorem popI (rd : Reg) : Statement (.popI rd) := ⟨topBits_encodeI _ _ _, by decide⟩

theorem mulR (rd rs : Reg) : Statement (.mulR rd rs) := ⟨topBits_encodeR _ _ _, lowBits_encodeR _ _ _⟩

theorem mulI (rd : Reg) (imm8 : Imm8) : Statement (.mulI rd imm8) := ⟨topBits_encodeI _ _ _, by decide⟩

theorem cmpR (rd rs : Reg) : Statement (.cmpR rd rs) := ⟨topBits_encodeR _ _ _, lowBits_encodeR _ _ _⟩

theorem cmpI (rd : Reg) (imm8 : Imm8) : Statement (.cmpI rd imm8) := ⟨topBits_encodeI _ _ _, by decide⟩

theorem tstR (rd rs : Reg) : Statement (.tstR rd rs) := ⟨topBits_encodeR _ _ _, lowBits_encodeR _ _ _⟩

theorem tstI (rd : Reg) (imm8 : Imm8) : Statement (.tstI rd imm8) := ⟨topBits_encodeI _ _ _, by decide⟩

theorem jmpR (ccc : CondMask) (rs : Reg) : Statement (.jmpR ccc rs) := ⟨topBits_encodeR _ _ _, lowBits_encodeR _ _ _⟩

theorem jmpI (ccc : CondMask) (imm8 : Imm8) : Statement (.jmpI ccc imm8) := ⟨topBits_encodeI _ _ _, by decide⟩

theorem calR (ccc : CondMask) (rs : Reg) : Statement (.calR ccc rs) := ⟨topBits_encodeR _ _ _, lowBits_encodeR _ _ _⟩

theorem calI (ccc : CondMask) (imm8 : Imm8) : Statement (.calI ccc imm8) := ⟨topBits_encodeI _ _ _, by decide⟩

theorem retR (ccc : CondMask) : Statement (.retR ccc) := ⟨topBits_encodeR _ _ _, lowBits_encodeR _ _ _⟩

theorem retI (ccc : CondMask) : Statement (.retI ccc) := ⟨topBits_encodeI _ _ _, by decide⟩

theorem addR (rd rs : Reg) : Statement (.addR rd rs) := ⟨topBits_encodeR _ _ _, lowBits_encodeR _ _ _⟩

theorem addI (rd : Reg) (imm8 : Imm8) : Statement (.addI rd imm8) := ⟨topBits_encodeI _ _ _, by decide⟩

theorem subR (rd rs : Reg) : Statement (.subR rd rs) := ⟨topBits_encodeR _ _ _, lowBits_encodeR _ _ _⟩

theorem subI (rd : Reg) (imm8 : Imm8) : Statement (.subI rd imm8) := ⟨topBits_encodeI _ _ _, by decide⟩

theorem notR (rd rs : Reg) : Statement (.notR rd rs) := ⟨topBits_encodeR _ _ _, lowBits_encodeR _ _ _⟩

theorem notI (rd : Reg) (imm8 : Imm8) : Statement (.notI rd imm8) := ⟨topBits_encodeI _ _ _, by decide⟩

theorem andR (rd rs : Reg) : Statement (.andR rd rs) := ⟨topBits_encodeR _ _ _, lowBits_encodeR _ _ _⟩

theorem andI (rd : Reg) (imm8 : Imm8) : Statement (.andI rd imm8) := ⟨topBits_encodeI _ _ _, by decide⟩

theorem orrR (rd rs : Reg) : Statement (.orrR rd rs) := ⟨topBits_encodeR _ _ _, lowBits_encodeR _ _ _⟩

theorem orrI (rd : Reg) (imm8 : Imm8) : Statement (.orrI rd imm8) := ⟨topBits_encodeI _ _ _, by decide⟩

theorem xorR (rd rs : Reg) : Statement (.xorR rd rs) := ⟨topBits_encodeR _ _ _, lowBits_encodeR _ _ _⟩

theorem xorI (rd : Reg) (imm8 : Imm8) : Statement (.xorI rd imm8) := ⟨topBits_encodeI _ _ _, by decide⟩

theorem sllR (rd rs : Reg) : Statement (.sllR rd rs) := ⟨topBits_encodeR _ _ _, lowBits_encodeR _ _ _⟩

theorem sllI (rd : Reg) (imm4 : Nat) : Statement (.sllI rd imm4) := ⟨topBits_encodeI _ _ _, by decide⟩

theorem slrR (rd rs : Reg) : Statement (.slrR rd rs) := ⟨topBits_encodeR _ _ _, lowBits_encodeR _ _ _⟩

theorem slrI (rd : Reg) (imm4 : Nat) : Statement (.slrI rd imm4) := ⟨topBits_encodeI _ _ _, by decide⟩

end Sys2Proof.Laws.EncodedOpcode
end

