-- ==== Sys2Proof/Tests/Slice0.lean ====
section
/-! SUPPORT. Tests of single steps and decodings, their words and results taken from spec/95_test_vectors.md or worked out by hand from
the rules named, and a witness for the hypotheses of every statement that has some. -/

namespace Sys2Proof.Tests

open Sys2Proof.Machine

/-! ### Helpers -/

/-- What a next state shows, if there is one. -/
def seen {α : Type} (r : Result) (look : State → α) : Option α :=
  match r with
  | .next t => some (look t)
  | _ => none

/-- The fault of an outcome, if it is one. -/
def faulted (r : Result) : Option Fault :=
  match r with
  | .fault f => some f
  | _ => none

/-- The vectors' start state (95_test_vectors.md, Notation): index 0x0010, registers 0, FL = 010, CF_M = 1. -/
def start : State := { State.reset with ip := 0x0010#16 }

/-- One step from `s` with the instruction word placed at its index. -/
def run (w : Nat) (s : State) : Result := step (s.withFetchWord 16 w)

/-- Two bytes of memory. -/
def bytes (t : State) (a : Nat) : Byte × Byte := (t.mem.readByte a, t.mem.readByte (a + 1))

/-- `start` with two registers set. -/
def with2 (r q : Reg) (v w : Word) : State := (start.setReg r v).setReg q w

/-! ### WellFormed: an ill-formed term for each check -/

theorem test_wf_refuses_sll_amount_16 : (Instr.sllI .r0 16).wellFormed = false := by decide

theorem test_wf_refuses_slr_amount_16 : (Instr.slrI .r0 16).wellFormed = false := by decide

theorem test_wf_accepts_amount_15 : (Instr.sllI .r0 15).wellFormed = true ∧ (Instr.slrI .r7 15).wellFormed = true := by decide

/-! ### Decoding: a word of every row, in the bits of 30_encoding.md R72, R73, R75 -/

theorem test_decode_nop : decode 0b00000_000_000_00000#16 = .instr .nop := by decide

theorem test_decode_hlt :
    decode 0b00000_111_000_00001#16 = .instr (.hltR 0b111#3) ∧ decode 0b00001_111_00000000#16 = .instr (.hltI 0b111#3) := by decide

theorem test_decode_mov :
    decode 0b00000_001_010_00101#16 = .instr (.movR .r1 .r2) ∧ decode 0b00101_000_00000001#16 = .instr (.movI .r0 0x01#8) := by decide

theorem test_decode_rdm :
    decode 0b00000_001_010_00110#16 = .instr (.rdmR .r1 .r2) ∧ decode 0b00110_001_00010000#16 = .instr (.rdmI .r1 0x10#8) := by decide

theorem test_decode_wrm :
    decode 0b00000_011_100_00111#16 = .instr (.wrmR .r3 .r4) ∧ decode 0b00111_011_11111110#16 = .instr (.wrmI .r3 0xFE#8) := by decide

theorem test_decode_rdx : decode 0b00000_001_001_01100#16 = .instr (.rdxR .r1 .sp) := by decide

theorem test_decode_wrx :
    decode 0b00000_001_010_01101#16 = .instr (.wrxR .sp .r2) ∧ decode 0b01101_100_00000010#16 = .instr (.wrxI .ui 0x02#8) := by decide

theorem test_decode_psh :
    decode 0b00000_001_000_01110#16 = .instr (.pshR .r1) ∧ decode 0b01110_001_10101010#16 = .instr (.pshI .r1) := by decide

theorem test_decode_pop :
    decode 0b00000_010_000_01111#16 = .instr (.popR .r2) ∧ decode 0b01111_010_01010101#16 = .instr (.popI .r2) := by decide

theorem test_decode_mul :
    decode 0b00000_001_010_10000#16 = .instr (.mulR .r1 .r2) ∧ decode 0b10000_010_10000001#16 = .instr (.mulI .r2 0x81#8) := by decide

theorem test_decode_cmp :
    decode 0b00000_001_010_10001#16 = .instr (.cmpR .r1 .r2) ∧ decode 0b10001_001_00000101#16 = .instr (.cmpI .r1 0x05#8) := by decide

theorem test_decode_tst :
    decode 0b00000_000_101_10011#16 = .instr (.tstR .r0 .r5) ∧ decode 0b10011_000_00000001#16 = .instr (.tstI .r0 0x01#8) := by decide

theorem test_decode_jmp :
    decode 0b00000_111_011_10100#16 = .instr (.jmpR 0b111#3 .r3) ∧ decode 0b10100_010_00000101#16 = .instr (.jmpI 0b010#3 0x05#8) := by
  decide

theorem test_decode_cal :
    decode 0b00000_111_010_10101#16 = .instr (.calR 0b111#3 .r2) ∧ decode 0b10101_111_00000110#16 = .instr (.calI 0b111#3 0x06#8) := by
  decide

theorem test_decode_ret :
    decode 0b00000_111_000_10110#16 = .instr (.retR 0b111#3) ∧ decode 0b10110_111_00110011#16 = .instr (.retI 0b111#3) := by decide

theorem test_decode_add :
    decode 0b00000_000_100_11000#16 = .instr (.addR .r0 .r4) ∧ decode 0b11000_000_00000001#16 = .instr (.addI .r0 0x01#8) := by decide

theorem test_decode_sub :
    decode 0b00000_001_010_11001#16 = .instr (.subR .r1 .r2) ∧ decode 0b11001_001_00000001#16 = .instr (.subI .r1 0x01#8) := by decide

theorem test_decode_not :
    decode 0b00000_001_010_11010#16 = .instr (.notR .r1 .r2) ∧ decode 0b11010_000_00000000#16 = .instr (.notI .r0 0x00#8) := by decide

theorem test_decode_and :
    decode 0b00000_001_010_11011#16 = .instr (.andR .r1 .r2) ∧ decode 0b11011_001_00001111#16 = .instr (.andI .r1 0x0F#8) := by decide

theorem test_decode_orr :
    decode 0b00000_000_001_11100#16 = .instr (.orrR .r0 .r1) ∧ decode 0b11100_000_00000001#16 = .instr (.orrI .r0 0x01#8) := by decide

theorem test_decode_xor :
    decode 0b00000_110_001_11101#16 = .instr (.xorR .r6 .r1) ∧ decode 0b11101_001_11111111#16 = .instr (.xorI .r1 0xFF#8) := by decide

theorem test_decode_sll :
    decode 0b00000_000_001_11110#16 = .instr (.sllR .r0 .r1) ∧ decode 0b11110_000_00011000#16 = .instr (.sllI .r0 8) := by decide

theorem test_decode_slr :
    decode 0b00000_111_111_11111#16 = .instr (.slrR .r7 .r7) ∧ decode 0b11111_111_11111111#16 = .instr (.slrI .r7 15) := by decide

/-- 95_test_vectors.md, 2.4. -/
theorem test_decode_reserved :
    decode 0x07F2#16 = .rejected (.blankOpcode 0x12#5) ∧ decode 0xB800#16 = .rejected (.blankOpcode 0x17#5) ∧
      decode 0x67FF#16 = .rejected .noImmediateForm ∧ decodeBytes [0x28#8] = .rejected .truncated := by decide

/-- The high byte is the first byte: 95_test_vectors.md, 3.11. -/
theorem test_decode_bytes : decodeBytes [0xC0#8, 0x01#8] = .instr (.addI .r0 0x01#8) := by decide

theorem test_decodeTableWord : decodeTableWord 16 0x0387 = some (.wrmR .r3 .r4) ∧ decodeTableWord 16 0x0012 = none := by decide

/-- Every external register number under its name: R23. -/
theorem test_ext_numbers :
    [0, 1, 2, 3, 4, 5, 6, 7].map (fun n => ExtReg.ofBits (BitVec.ofNat 3 n)) = [.ip, .sp, .lr, .e3, .ui, .fl, .e6, .cf] := by decide

/-! ### One step of each instruction (95_test_vectors.md, section 3) -/

theorem test_nop_consumes_ui :
    seen (run 0x0000 { start with ui := 0x0005#16 }) (fun t => (t.ip, t.ui, t.fl)) = some (0x0011#16, 0#16, 0b010#16) := by decide

theorem test_hlt_on_e : seen (run 0x0201 start) (fun t => (t.halted, t.ip)) = some (true, 0x0011#16) := by decide

theorem test_hlt_i_on_l_goes_on : seen (run 0x0C00 start) (fun t => (t.halted, t.ip)) = some (false, 0x0011#16) := by decide

theorem test_mov_uses_only_the_low_byte_of_ui :
    seen (run 0x2801 { start with ui := 0x0302#16 }) (fun t => (t.reg .r0, t.ui, t.fl)) = some (0x0201#16, 0#16, 0b010#16) := by decide

theorem test_mov_r : seen (run 0x0145 (with2 .r1 .r2 0x0001#16 0xBEEF#16)) (fun t => t.reg .r1) = some 0xBEEF#16 := by decide

theorem test_rdm_reads_its_own_word : seen (run 0x3120 start) (fun t => t.reg .r1) = some 0x3120#16 := by decide

theorem test_rdm_odd :
    faulted (run 0x0146 (with2 .r1 .r2 0x7777#16 0x0101#16)) = some (.unalignedAccess 0x0101#16) := by decide

theorem test_wrm_big_endian :
    seen (run 0x0387 (with2 .r3 .r4 0xCAFE#16 0x0200#16)) (fun t => bytes t 0x200) = some (0xCA#8, 0xFE#8) := by decide

theorem test_wrm_i_top_of_memory :
    seen (run 0x3BFE { start.setReg .r3 0x0102#16 with ui := 0x00FF#16 }) (fun t => bytes t 0xFFFE) = some (0x01#8, 0x02#8) := by decide

theorem test_rdx_ip : seen (run 0x050C { start with ip := 0x7FFF#16 }) (fun t => (t.reg .r5, t.ip)) = some (0x8000#16, 0x8000#16) := by
  decide

theorem test_rdx_e6 : faulted (run 0x01CC start) = some (.reservedExternalRegister 6#3) := by decide

theorem test_wrx_ui_uses_the_old_ui : seen (run 0x6C03 { start with ui := 0x0002#16 }) (fun t => t.ui) = some 0x0203#16 := by decide

theorem test_wrx_ip_is_not_incremented :
    seen (run 0x6810 { start with ip := 0x0020#16 }) (fun t => (t.ip, t.ui)) = some (0x0010#16, 0#16) := by decide

theorem test_psh_wraps :
    seen (run 0x010E (start.setReg .r1 0xBEEF#16)) (fun t => (t.sp, bytes t 0xFFFE)) = some (0xFFFE#16, 0xBE#8, 0xEF#8) := by decide

theorem test_psh_odd : faulted (run 0x71AA { start with sp := 0x0201#16 }) = some (.unalignedAccess 0x01FF#16) := by decide

theorem test_pop_wraps :
    seen (run 0x020F { start with sp := 0xFFFE#16, mem := [(0xFFFF, 0x07#8)] }) (fun t => (t.reg .r2, t.sp)) =
      some (0x0007#16, 0x0000#16) := by decide

theorem test_mul_truncates :
    seen (run 0x0150 (with2 .r1 .r2 300#16 300#16)) (fun t => (t.reg .r1, t.fl)) = some (0x5F90#16, 0b001#16) := by decide

theorem test_mul_absent : faulted (run 0x0150 { start with cf := 0x0000#16 }) = some (.featureAbsent 0x0150#16) := by decide

theorem test_cmp_is_the_sign_of_the_difference :
    seen (run 0x0151 (with2 .r1 .r2 0x8000#16 0x0001#16)) (fun t => (t.fl, t.reg .r1)) = some (0b001#16, 0x8000#16) := by decide

theorem test_cmp_i_equal : seen (run 0x8905 (start.setReg .r1 5#16)) (fun t => t.fl) = some 0b010#16 := by decide

theorem test_tst_bit_15 :
    seen (run 0x9800 { start.setReg .r0 0x8000#16 with ui := 0x0080#16 }) (fun t => (t.fl, t.reg .r0)) = some (0b100#16, 0x8000#16) := by
  decide

theorem test_jmp_taken_with_ui :
    seen (run 0xA205 { start with ui := 0x0001#16 }) (fun t => (t.ip, t.ui)) = some (0x0105#16, 0#16) := by decide

theorem test_jmp_not_taken_loses_ui :
    seen (run 0xA105 { start with ui := 0x0001#16 }) (fun t => (t.ip, t.ui)) = some (0x0011#16, 0#16) := by decide

theorem test_jmp_leg_on_zero_flags :
    seen (run 0x0774 { start.setReg .r3 0x0123#16 with fl := 0#16 }) (fun t => (t.ip, t.draws)) = some (0x0123#16, 0) := by decide

theorem test_cal : seen (run 0xAF06 start) (fun t => (t.lr, t.ip)) = some (0x0011#16, 0x0006#16) := by decide

theorem test_cal_not_taken_keeps_lr :
    seen (run 0xAC06 { start with lr := 0x0099#16 }) (fun t => (t.lr, t.ip)) = some (0x0099#16, 0x0011#16) := by decide

theorem test_ret : seen (run 0xB733 { start with lr := 0x0004#16 }) (fun t => (t.ip, t.lr)) = some (0x0004#16, 0x0004#16) := by decide

theorem test_ret_not_taken : seen (run 0x0116 { start with lr := 0x0004#16 }) (fun t => t.ip) = some 0x0011#16 := by decide

theorem test_add_wraps_to_negative :
    seen (run 0xC001 (start.setReg .r0 0x7FFF#16)) (fun t => (t.reg .r0, t.fl)) = some (0x8000#16, 0b100#16) := by decide

theorem test_add_same_register :
    seen (run 0x0018 (start.setReg .r0 0x8000#16)) (fun t => (t.reg .r0, t.fl)) = some (0#16, 0b010#16) := by decide

theorem test_sub_order :
    seen (run 0x0159 (with2 .r1 .r2 5#16 7#16)) (fun t => (t.reg .r1, t.reg .r2, t.fl)) = some (0xFFFE#16, 7#16, 0b100#16) := by decide

theorem test_not_ignores_old_rd :
    seen (run 0x015A (with2 .r1 .r2 0x1111#16 0x00FF#16)) (fun t => (t.reg .r1, t.fl)) = some (0xFF00#16, 0b100#16) := by decide

theorem test_not_i_all_ones :
    seen (run 0xD0FF { start with ui := 0x00FF#16 }) (fun t => (t.reg .r0, t.fl)) = some (0#16, 0b010#16) := by decide

theorem test_and_i : seen (run 0xD90F (start.setReg .r1 0xABCD#16)) (fun t => (t.reg .r1, t.fl)) = some (0x000D#16, 0b001#16) := by
  decide

theorem test_orr_r : seen (run 0x003C (with2 .r0 .r1 0x8000#16 0x0001#16)) (fun t => (t.reg .r0, t.fl)) =
    some (0x8001#16, 0b100#16) := by decide

theorem test_xor_i :
    seen (run 0xE9FF { start.setReg .r1 0x00FF#16 with ui := 0x00FF#16 }) (fun t => (t.reg .r1, t.fl)) = some (0xFF00#16, 0b100#16) := by
  decide

theorem test_sll_amount_modulo_16 :
    seen (run 0x003E (with2 .r0 .r1 0x0FFF#16 0xFFF4#16)) (fun t => (t.reg .r0, t.fl)) = some (0xFFF0#16, 0b100#16) := by decide

theorem test_sll_i_ignores_ui :
    seen (run 0xF004 { start.setReg .r0 0x0001#16 with ui := 0x0001#16 }) (fun t => (t.reg .r0, t.ui)) = some (0x0010#16, 0#16) := by decide

theorem test_slr_is_logical :
    seen (run 0xF901 (start.setReg .r1 0x8000#16)) (fun t => (t.reg .r1, t.fl)) = some (0x4000#16, 0b001#16) := by decide

theorem test_slr_by_itself :
    seen (run 0x013F (start.setReg .r1 0x0104#16)) (fun t => (t.reg .r1, t.fl)) = some (0x0010#16, 0b001#16) := by decide

/-! ### Fetch, halt, reset (95_test_vectors.md, 3.1, 3.11) -/

theorem test_fetch_out_of_range : faulted (step { start with ip := 0xFFFF#16 }) = some (.fetchOutOfRange 0xFFFF#16) := by decide

theorem test_reserved_word : faulted (run 0x6000 start) = some (.reservedInstruction 0x6000#16) := by decide

theorem test_halted_stays : seen (step { start with halted := true }) (fun t => (t.ip, t.halted)) = some (0x0010#16, true) := by decide

theorem test_first_instruction_after_reset :
    seen (step { State.reset with mem := [(0, 0xC0#8), (1, 0x01#8)] }) (fun t => (t.reg .r0, t.fl, t.ip)) =
      some (1#16, 0b001#16, 1#16) := by decide

/-- Writing the blank byte removes the entry. -/
theorem test_memory_canonical :
    Memory.writeByte [(1, 0x05#8), (2, 0x06#8)] 1 0x00#8 = [(2, 0x06#8)] ∧
      Memory.writeByte [(1, 0x05#8), (3, 0x06#8)] 2 0x07#8 = [(1, 0x05#8), (2, 0x07#8), (3, 0x06#8)] := by decide

/-! ### Witnesses: the hypotheses of each statement can be met, at the ends of their ranges -/

theorem witness_DecodeOfEncode : (Instr.sllI .r7 15).wellFormed = true ∧ (Instr.slrI .r0 0).wellFormed = true := by decide

theorem witness_EncodeOfDecode : decode 0xF018#16 = .instr (.sllI .r0 8) ∧ decode 0x07E0#16 = .instr .nop := by decide

theorem witness_ReservedWords : reservedWord 0x0002#16 ∧ reservedWord 0x67FF#16 ∧ ¬ reservedWord 0x0000#16 := by decide

theorem witness_ConditionCodes :
    decode 0x0774#16 = .instr (.jmpR 0b111#3 .r3) ∧ condMask (.jmpR 0b111#3 .r3) = some 0b111#3 ∧ FlagsOneHot start := by decide

theorem witness_AStepRuns :
    ∃ s : State, s.halted = false ∧ s.ip.toNat < 0x8000 ∧ decode (wordAt s (2 * s.ip.toNat)) = .instr (.addI .r0 0x01#8) :=
  ⟨{ start with ip := 0x7FFF#16, mem := [(0xFFFE, 0xC0#8), (0xFFFF, 0x01#8)] }, by decide⟩

theorem witness_AStepStops_range : ∃ s : State, s.halted = false ∧ 0x8000 ≤ s.ip.toNat :=
  ⟨{ start with ip := 0x8000#16 }, by decide⟩

theorem witness_AStepStops_reserved :
    ∃ s : State, s.halted = false ∧ s.ip.toNat < 0x8000 ∧ reservedWord (wordAt s (2 * s.ip.toNat)) :=
  ⟨{ start with ip := 0x7FFF#16, mem := [(0xFFFF, 0x02#8)] }, by decide⟩

theorem witness_Halted :
    ∃ s t : State, s.halted = true ∧ exec .nop s = .next t ∧ isHalt .nop = false := ⟨{ start with halted := true }, _, rfl, rfl, rfl⟩

theorem witness_Halted_fault : ∃ (i : Instr) (s : State) (f : Fault), exec i s = .fault f := ⟨.rdxR .r0 .e3, start, _, rfl⟩

/-- RDM and WRM, both formats, the highest even and odd addresses. -/
theorem witness_RdmWrm :
    ∃ (s u : State), (s.reg .r2).toNat % 2 = 0 ∧ (imm16 0xFE#8 s).toNat % 2 = 0 ∧ (regOperand .r2 s).toNat % 2 = 0 ∧
      (immOperand 0xFE#8 s).toNat % 2 = 0 ∧ (u.reg .r2).toNat % 2 = 1 ∧ (imm16 0xFF#8 u).toNat % 2 = 1 :=
  ⟨{ start.setReg .r2 0xFFFE#16 with ui := 0xFF#16 }, { start.setReg .r2 0xFFFF#16 with ui := 0xFF#16 }, by decide⟩

theorem witness_RdxWrx : ¬ CarriesNoRegister .cf ∧ ¬ CarriesNoRegister .ip ∧ CarriesNoRegister .e3 ∧ CarriesNoRegister .e6 := by decide

theorem witness_PshPop : ∃ s u : State, s.sp.toNat % 2 = 0 ∧ u.sp.toNat % 2 = 1 := ⟨start, { start with sp := 0xFFFF#16 }, by decide⟩

theorem witness_Mul : ∃ s u : State, s.cf.toNat % 2 = 1 ∧ u.cf.toNat % 2 = 0 := ⟨start, { start with cf := 0#16 }, by decide⟩

/-- The clauses of the condition test: one-hot flags, and flags that leave the outcome to a draw. -/
theorem witness_TestOutcome :
    (0b010#3 : CondMask) ≠ 0b111#3 ∧ (0b010#3 : CondMask) ≠ 0b000#3 ∧ FlagsOneHot start ∧ ¬ FlagsOneHot { start with fl := 0b111#16 } := by
  decide

theorem witness_Immediates :
    ∃ s : State, (s.reg .r2).toNat = (s.ui.toNat % 256) * 256 + (0xFF#8 : Imm8).toNat ∧ s.cf.toNat % 2 = 1 :=
  ⟨{ start.setReg .r2 0xFFFF#16 with ui := 0x12FF#16 }, by decide⟩

theorem witness_ShiftAmounts : (0x18#8 : Imm8).toNat % 16 = (0x08#8 : Imm8).toNat % 16 := by decide

/-- UI, IP, LR, SP, FL, CF: next states of a writer of each and of an instruction that writes none. -/
theorem witness_ExternalWriters :
    (∃ t, exec (.wrxI .ui 0xFF#8) start = .next t) ∧ (∃ t, exec (.wrxR .ip .r0) start = .next t) ∧
      (∃ t, exec (.wrxR .lr .r0) start = .next t) ∧ (∃ t, exec (.wrxR .sp .r0) start = .next t) ∧
      (∃ t, exec (.wrxR .fl .r0) start = .next t) ∧ (∃ t, exec (.retR 0b111#3) start = .next t) ∧
      (∃ t, exec (.popR .r0) start = .next t) ∧ (∃ t, exec (.pshI .r0) start = .next t) ∧ ∃ t, exec .nop start = .next t :=
  ⟨⟨_, rfl⟩, ⟨_, rfl⟩, ⟨_, rfl⟩, ⟨_, rfl⟩, ⟨_, rfl⟩, ⟨_, rfl⟩, ⟨_, rfl⟩, ⟨_, rfl⟩, ⟨_, rfl⟩⟩

theorem witness_IpReadByCal :
    ∃ t, exec (.calI 0b111#3 0x06#8) start = .next t ∧ isCall (.calI 0b111#3 0x06#8) = true ∧
      transfer start (.calI 0b111#3 0x06#8) = some (0b111#3, 0x0006#16) ∧ condHolds 0b111#3 start = true :=
  ⟨_, rfl, by decide⟩

theorem witness_FlagSetter : ∃ t, setsFlags (.xorR .r1 .r1) = true ∧ exec (.xorR .r1 .r1) start = .next t := ⟨_, rfl, rfl⟩

theorem witness_OnlyWrxToFl : ∃ t, FlagsOneHot start ∧ step start = .next t := ⟨_, by decide, rfl⟩

theorem witness_Destination : ∃ t, exec (.addI .r1 0x01#8) start = .next t ∧ destination (.addI .r1 0x01#8) ≠ some .r2 :=
  ⟨_, rfl, by decide⟩

theorem witness_FourInstructions :
    (∃ t, exec (.rdmR .r1 .r2) start = .next t ∧ loadAddr start (.rdmR .r1 .r2) = some 0#16) ∧
      (∃ t, exec (.pshR .r1) start = .next t ∧ storeAddr start (.pshR .r1) ≠ none) ∧
      (loadAddr start (.rdxR .r0 .e3) = none ∧ storeAddr start (.rdxR .r0 .e3) = none ∧ ∃ f, exec (.rdxR .r0 .e3) start = .fault f) ∧
      (∃ t, exec (.wrmI .r0 0xFE#8) start = .next t) ∧ (∃ t, exec (.rdmI .r0 0xFE#8) start = .next t) ∧ ∃ t, exec (.popI .r0) start = .next t :=
  ⟨⟨_, rfl, by decide⟩, ⟨_, rfl, by decide⟩, ⟨rfl, rfl, _, rfl⟩, ⟨_, rfl⟩, ⟨_, rfl⟩, _, rfl⟩

theorem witness_StopsOnlyOnTheListedFaults : ¬ ∃ f, Raises start .nop f := by
  rintro ⟨_, h⟩
  cases h <;> contradiction

theorem witness_MemoryReadsBack : (0xFFFE#16 : Word).toNat % 2 = 0 ∧ (0xFFFF#16 : Word).toNat % 2 = 1 := by decide

theorem witness_PopAfterPsh : start.sp.toNat % 2 = 0 := by decide

/-- A state that goes on after the WRX to UI, with the immediate's value in a register, and after an instruction in between. -/
theorem witness_AWrxToUi :
    ∃ s t n : State, s.ui = 0#16 ∧ exec (.wrxI .ui 0xFF#8) s = .next t ∧ (t.reg .r2).toNat = (0xFF#8 : Imm8).toNat * 256 + (0x01#8 : Imm8).toNat ∧
      t.cf.toNat % 2 = 1 ∧ exec .nop t = .next n ∧ (∀ v, extWritten t .nop ≠ some (.ui, v)) ∧ (n.reg .r3).toNat = (0x01#8 : Imm8).toNat ∧
      n.cf.toNat % 2 = 1 :=
  ⟨with2 .r2 .r3 0xFF01#16 0x0001#16, _, _, rfl, rfl, by decide, by decide, rfl, fun _ => nofun, by decide, by decide⟩

/-- WRM and PSH over the last instruction of memory, PSH by the wrap of SP. -/
theorem witness_AStoreIsSeen :
    (∃ s t : State, s.ip.toNat + 1 < 0x8000 ∧ storeAddr s (.wrmR .r1 .r2) = some (0xFFFE#16, s.reg .r1) ∧
      (0xFFFE#16 : Word).toNat = 2 * (s.ip.toNat + 1) ∧ exec (.wrmR .r1 .r2) s = .next t) ∧
      ∃ s t : State, s.ip.toNat + 1 < 0x8000 ∧ storeAddr s (.pshI .r1) = some (0xFFFE#16, s.reg .r1) ∧
        (0xFFFE#16 : Word).toNat = 2 * (s.ip.toNat + 1) ∧ exec (.pshI .r1) s = .next t :=
  ⟨⟨{ start.setReg .r2 0xFFFE#16 with ip := 0x7FFE#16 }, _, by decide, by decide, by decide, rfl⟩,
    { start with ip := 0x7FFE#16 }, _, by decide, by decide, by decide, rfl⟩

theorem witness_ResetMeets : Memory.wf [] = true ∧ Memory.wf [(0, 0x01#8), (0xFFFF, 0xFF#8)] = true := by decide

/-- The invariant holds of a state whose step goes on, and fails of memories out of canonical form. -/
theorem witness_EveryStepKeeps :
    State.reset.Inv ∧ (∃ t, step State.reset = .next t) ∧ Memory.wf [(2, 0x01#8), (1, 0x01#8)] = false ∧
      Memory.wf [(1, 0x00#8)] = false ∧ Memory.wf [(0x10000, 0x01#8)] = false :=
  ⟨by decide, ⟨_, rfl⟩, by decide, by decide, by decide⟩

end Sys2Proof.Tests
end

section
/-! SUPPORT. What a completed instruction does to the state: one inversion lemma over the instruction set, from which the frame of each
register follows. -/

namespace Sys2Proof.Machine

/-! ### IP and WRX -/

/-- `ip_in` in the terms of the statements (10_state.md R26). -/
theorem State.ipIn_eq_ofNat (s : State) : s.ipIn = BitVec.ofNat 16 (s.ip.toNat + 1) :=
  BitVec.eq_of_toNat_eq (by simp)

/-- A WRX reaches LR only under LR's number (41_data_movement.md R115). -/
theorem writeExt_lr {ed : ExtReg} {v : Word} {s t : State} (h : writeExt ed v s = .ok t) :
    t.lr = if ed = .lr then v else s.lr := by
  cases ed <;> cases h <;> rfl

/-- A WRX changes CF under no number (10_state.md R37). -/
theorem writeExt_cf {ed : ExtReg} {v : Word} {s t : State} (h : writeExt ed v s = .ok t) : t.cf = s.cf := by
  cases ed <;> cases h <;> rfl

/-! ### MUL -/

/-- MUL completes exactly where the machine has it (42_mul_cmp_tst.md R120). -/
theorem multiply_eq_next {rd : Reg} {v : Word} {i : Instr} {s t : State} :
    multiply rd v i s = .next t ↔ s.hasMul = true ∧ writeResult rd (product (s.reg rd) v) s = .next t := by
  cases h : s.hasMul <;> simp [multiply, h, raise]

/-! ### Every instruction -/

/-- The instruction is neither a WRX nor a control transfer. -/
def Straight (s : State) (i : Instr) : Prop := extWritten s i = none ∧ transfer s i = none

/-- `Completes s i t`: from `s`, the instruction `i` may go on to `t`. One constructor for each shared operation of the meanings; its
hypotheses say which instructions use it, in the terms of the statements. -/
inductive Completes (s : State) (i : Instr) : State → Prop where
  /-- NOP. -/
  | idle : i = .nop → Straight s i → Completes s i s.advance
  /-- The instructions with a destination that set the flags by its new value. -/
  | compute (rd : Reg) (r : Word) : destination i = some rd → setsFlags i = true → Straight s i →
      Completes s i ((s.setReg rd r).setFlags r).advance
  /-- CMP and TST. -/
  | compare (r : Word) : destination i = none → setsFlags i = true → Straight s i → Completes s i (s.setFlags r).advance
  /-- MOV and RDX. -/
  | move (rd : Reg) (v : Word) : destination i = some rd → setsFlags i = false → loadAddr s i = none → Straight s i →
      Completes s i (load rd v s)
  /-- RDM. -/
  | read (rd : Reg) (a : Word) : (∃ rs, i = .rdmR rd rs) ∨ (∃ imm8, i = .rdmI rd imm8) → loadAddr s i = some a →
      a.toNat % 2 = 0 → Straight s i → Completes s i (load rd (s.mem.readWord a.toNat) s)
  /-- WRM. -/
  | write (rd : Reg) (a : Word) : (∃ rs, i = .wrmR rd rs) ∨ (∃ imm8, i = .wrmI rd imm8) → storeAddr s i = some (a, s.reg rd) →
      a.toNat % 2 = 0 → Straight s i → Completes s i ({ s with mem := s.mem.writeWord a.toNat (s.reg rd) } : State).advance
  /-- PSH. -/
  | push (rd : Reg) : i = .pshR rd ∨ i = .pshI rd → s.pushAddr.toNat % 2 = 0 → Straight s i →
      Completes s i
        { ({ s with mem := s.mem.writeWord s.pushAddr.toNat (s.reg rd) } : State).advance with sp := s.pushAddr }
  /-- POP. -/
  | pop (rd : Reg) : i = .popR rd ∨ i = .popI rd → s.sp.toNat % 2 = 0 → Straight s i →
      Completes s i { load rd (s.mem.readWord s.sp.toNat) s with sp := s.popSp }
  /-- WRX. -/
  | wrx (ed : ExtReg) (v : Word) {t : State} : extWritten s i = some (ed, v) → transfer s i = none → writeExt ed v s = .ok t →
      Completes s i t
  /-- HLT. -/
  | halt (ccc : CondMask) : i = .hltR ccc ∨ i = .hltI ccc → Straight s i →
      Completes s i
        (if condHolds ccc s then { (s.afterTest ccc).advance with halted := true } else (s.afterTest ccc).advance)
  /-- JMP and RET. -/
  | jump (ccc : CondMask) (target : Word) : transfer s i = some (ccc, target) → isCall i = false → extWritten s i = none →
      Completes s i (if condHolds ccc s then (s.afterTest ccc).jumpTo target else (s.afterTest ccc).advance)
  /-- CAL. -/
  | call (ccc : CondMask) (target : Word) : transfer s i = some (ccc, target) → isCall i = true → extWritten s i = none →
      Completes s i
        (if condHolds ccc s then { (s.afterTest ccc).jumpTo target with lr := s.ipIn } else (s.afterTest ccc).advance)

/-- Everything an instruction that completes can have done. -/
theorem completes_of_exec {i : Instr} {s t : State} (h : exec i s = .next t) : Completes s i t := by
  cases i with
  | nop => cases h; exact .idle rfl ⟨rfl, rfl⟩
  | addR rd | addI rd | subR rd | subI rd | notR rd | notI rd | andR rd | andI rd | orrR rd | orrI rd | xorR rd | xorI rd
  | sllR rd | sllI rd | slrR rd | slrI rd =>
    cases h
    exact .compute rd _ rfl rfl ⟨rfl, rfl⟩
  | mulR rd | mulI rd =>
    obtain ⟨-, hw⟩ := multiply_eq_next.mp h
    cases hw
    exact .compute rd _ rfl rfl ⟨rfl, rfl⟩
  | cmpR | cmpI | tstR | tstI => cases h; exact .compare _ rfl rfl ⟨rfl, rfl⟩
  | movR rd | movI rd => cases h; exact .move rd _ rfl rfl rfl ⟨rfl, rfl⟩
  | rdxR rd =>
    obtain ⟨v, -, rfl⟩ := orRaise_eq_next.mp h
    exact .move rd v rfl rfl rfl ⟨rfl, rfl⟩
  | rdmR rd rs =>
    obtain ⟨v, hv, rfl⟩ := orRaise_eq_next.mp h
    obtain ⟨he, rfl⟩ := memRead_eq_ok.mp hv
    exact .read rd _ (.inl ⟨rs, rfl⟩) rfl he ⟨rfl, rfl⟩
  | rdmI rd imm8 =>
    obtain ⟨v, hv, rfl⟩ := orRaise_eq_next.mp h
    obtain ⟨he, rfl⟩ := memRead_eq_ok.mp hv
    exact .read rd _ (.inr ⟨imm8, rfl⟩) (congrArg some (immOperand_eq_imm16 imm8 s).symm) he ⟨rfl, rfl⟩
  | wrmR rd rs =>
    obtain ⟨u, hu, rfl⟩ := orRaise_eq_next.mp h
    obtain ⟨he, rfl⟩ := memWrite_eq_ok.mp hu
    exact .write rd _ (.inl ⟨rs, rfl⟩) rfl he ⟨rfl, rfl⟩
  | wrmI rd imm8 =>
    obtain ⟨u, hu, rfl⟩ := orRaise_eq_next.mp h
    obtain ⟨he, rfl⟩ := memWrite_eq_ok.mp hu
    exact .write rd _ (.inr ⟨imm8, rfl⟩) rfl he ⟨rfl, rfl⟩
  | pshR rd | pshI rd =>
    obtain ⟨u, hu, rfl⟩ := orRaise_eq_next.mp h
    obtain ⟨he, rfl⟩ := memWrite_eq_ok.mp hu
    exact .push rd (by simp) he ⟨rfl, rfl⟩
  | popR rd | popI rd =>
    obtain ⟨v, hv, rfl⟩ := orRaise_eq_next.mp h
    obtain ⟨he, rfl⟩ := memRead_eq_ok.mp hv
    exact .pop rd (by simp) he ⟨rfl, rfl⟩
  | wrxR ed rs =>
    obtain ⟨u, hu, rfl⟩ := orRaise_eq_next.mp h
    exact .wrx ed _ rfl rfl hu
  | wrxI ed imm8 =>
    obtain ⟨u, hu, rfl⟩ := orRaise_eq_next.mp h
    exact .wrx ed _ rfl rfl (immOperand_eq_imm16 imm8 s ▸ hu)
  | hltR ccc | hltI ccc => cases h; exact .halt ccc (by simp) ⟨rfl, rfl⟩
  | jmpR ccc rs => cases h; exact .jump ccc _ rfl rfl rfl
  | jmpI ccc imm8 => cases h; exact immOperand_eq_imm16 imm8 s ▸ .jump ccc _ rfl rfl rfl
  | retR ccc | retI ccc => cases h; exact .jump ccc _ rfl rfl rfl
  | calR ccc rs => cases h; exact .call ccc _ rfl rfl rfl
  | calI ccc imm8 => cases h; exact immOperand_eq_imm16 imm8 s ▸ .call ccc _ rfl rfl rfl

/-! ### LR and CF over every instruction -/

/-- Where LR comes from: WRX (41_data_movement.md R115), a control transfer (43_control_transfer.md R126), or the state before. -/
theorem Completes.lr_cases {s t : State} {i : Instr} (h : Completes s i t) :
    (∃ ed v, extWritten s i = some (ed, v) ∧ transfer s i = none ∧ t.lr = if ed = .lr then v else s.lr) ∨
      (∃ ccc target, extWritten s i = none ∧ transfer s i = some (ccc, target) ∧
        t.lr = if isCall i && condHolds ccc s then s.ipIn else s.lr) ∨
      (Straight s i ∧ t.lr = s.lr) := by
  cases h with
  | idle | compute | compare | move | read | write | push | pop => exact .inr (.inr ⟨‹Straight s i›, rfl⟩)
  | halt ccc _ hs => exact .inr (.inr ⟨hs, by cases condHolds ccc s <;> rfl⟩)
  | wrx ed v he ht hw => exact .inl ⟨ed, v, he, ht, writeExt_lr hw⟩
  | jump ccc target ht hc he | call ccc target ht hc he =>
    exact .inr (.inl ⟨ccc, target, he, ht, by rw [hc]; cases condHolds ccc s <;> rfl⟩)

/-- No instruction changes CF (10_state.md R37). -/
theorem Completes.cf {s t : State} {i : Instr} (h : Completes s i t) : t.cf = s.cf := by
  cases h with
  | idle | compute | compare | move | read | write | push | pop => rfl
  | wrx ed v _ _ hw => exact writeExt_cf hw
  | halt ccc | jump ccc | call ccc => cases condHolds ccc s <;> rfl

end Sys2Proof.Machine
end

section
/-! PROOFS. The statements of 10_state.md about LR, CF and the general registers. -/

namespace Sys2Proof.Proofs

open Sys2Proof.Machine

/-- Settles O50: reset writes every one of the eight registers, so each register number is one reading of a literal. -/
theorem generalRegistersAreZeroAfterReset : Obligations.GeneralRegistersAreZeroAfterReset := by
  intro m f mem r
  cases r <;> rfl

/-- Settles O37, by the source of LR in every completed instruction. -/
theorem lrIsWrittenByCalAndWrxOnly : Obligations.LrIsWrittenByCalAndWrxOnly := by
  refine ⟨fun i s t h => ?_, fun ccc s hc => ?_, fun m f mem => rfl⟩
  · obtain ⟨ed, v, he, ht, hlr⟩ | ⟨ccc, target, he, ht, hlr⟩ | ⟨⟨he, ht⟩, hlr⟩ := (completes_of_exec h).lr_cases
    · simp only [he, ht]
      cases ed <;> exact hlr
    · simpa only [he, ht, ← State.ipIn_eq_ofNat] using hlr
    · simpa only [he, ht] using hlr
  · have hret : ret ccc s = .next ((s.afterTest ccc).jumpTo s.lr) := conditionally_eq_next.mpr (.inl ⟨hc, rfl⟩)
    exact ⟨_, hret, hret, State.jumpTo_ip _ _⟩

/-- Settles O42: no shared operation writes CF, and a WRX to CF is the default end of the cycle. -/
theorem cfIsReadOnly : Obligations.CfIsReadOnly := by
  refine ⟨fun i s t h => (completes_of_exec h).cf, fun rd s => ?_, fun rs imm8 s => ?_⟩
  · exact ⟨load rd s.cf s, rfl, State.reg_setReg_same s rd s.cf⟩
  · rw [← State.ipIn_eq_ofNat]
    exact ⟨rfl, rfl⟩

end Sys2Proof.Proofs
end

section
/-! SUPPORT. The condition field of a decoded word (30_encoding.md R77), the second operand in its two formats (R78), and the shift
amount (R79). -/

namespace Sys2Proof.Machine

/-! ### Words that carry a condition -/

/-- The opcode numbers of HLT, JMP, CAL and RET (30_encoding.md R75). -/
abbrev condOpcodes : List Nat := [0x01, 0x14, 0x15, 0x16]

/-- The opcode of a word, read in its format, is that of a conditional instruction. -/
abbrev CondWord (w : Word) : Prop :=
  (w.toNat / 0x800 = 0 ∧ w.toNat % 0x20 ∈ condOpcodes) ∨ w.toNat / 0x800 ∈ condOpcodes

/-- By opcode number: an R-format instruction carries field B as its mask or has none. -/
theorem decodeR_condMask_iff {opcode : BitVec 5} {b c : BitVec 3} {ccc : CondMask} :
    (∃ i, decodeR opcode b c = .instr i ∧ condMask i = some ccc) ↔ opcode.toNat ∈ condOpcodes ∧ b = ccc := by
  unfold decodeR
  split <;> simp_all [condMask]

/-- By opcode number: an I-format instruction carries field B as its mask or has none. -/
theorem decodeI_condMask_iff {opcode : BitVec 5} {b : BitVec 3} {imm8 : Imm8} {ccc : CondMask} :
    (∃ i, decodeI opcode b imm8 = .instr i ∧ condMask i = some ccc) ↔ opcode.toNat ∈ condOpcodes ∧ b = ccc := by
  unfold decodeI
  split <;> simp_all [condMask]

/-- `ccc` is field B, in both formats and of no other opcode. -/
theorem decode_condMask_iff {w : Word} {ccc : CondMask} :
    (∃ i, decode w = .instr i ∧ condMask i = some ccc) ↔ CondWord w ∧ fieldB w = ccc := by
  have hTop : topBits w = 0#5 ↔ w.toNat / 0x800 = 0 := by
    rw [← topBits_toNat, ← BitVec.toNat_inj, BitVec.toNat_ofNat]
  by_cases h : topBits w = 0#5
  · rw [decode, if_pos h, decodeR_condMask_iff, lowBits_toNat]
    simp [CondWord, hTop.mp h]
  · rw [decode, if_neg h, decodeI_condMask_iff, topBits_toNat]
    simp only [CondWord, hTop.not.mp h, false_and, false_or]

/-- The target register of JMP and CAL in R-format is field C. -/
theorem decode_target {w : Word} {i : Instr} {ccc : CondMask} {rs : Reg} (h : decode w = .instr i)
    (hi : i = .jmpR ccc rs ∨ i = .calR ccc rs) : rs.toBits = fieldC w := by
  unfold decode at h
  split at h
  · unfold decodeR at h
    obtain rfl | rfl := hi
    · split at h <;> cases h
      exact Reg.toBits_ofBits _
    · split at h <;> cases h
      exact Reg.toBits_ofBits _
  · unfold decodeI at h
    obtain rfl | rfl := hi <;> split at h <;> cases h

theorem fieldB_getLsbD (w : Word) {k : Nat} (hk : k < 3) : (fieldB w).getLsbD k = w.getLsbD (8 + k) := by
  simp [fieldB, hk]

/-! ### The condition on one-hot flags -/

theorem flags_getLsbD (s : State) {k : Nat} (hk : k < 3) : s.flags.getLsbD k = s.fl.getLsbD k := by
  simp [State.flags, hk]

theorem oneHot_and_all : ∀ f : BitVec 3, oneHot f = true → f &&& 0b111#3 ≠ 0#3 := by decide

/-- Two masks meet if and only if they share one of L, E, G. -/
theorem and_ne_zero_iff_shared_bit : ∀ f ccc : BitVec 3, f &&& ccc ≠ 0#3 ↔
    (f.getLsbD 2 = true ∧ ccc.getLsbD 2 = true) ∨ (f.getLsbD 1 = true ∧ ccc.getLsbD 1 = true) ∨
      (f.getLsbD 0 = true ∧ ccc.getLsbD 0 = true) := by decide

/-- On one-hot flags the masks 111 and 000 are no special cases (40_cycle_nop_hlt.md R101). -/
theorem condHolds_iff_of_oneHot {s : State} (h : oneHot s.flags = true) (ccc : CondMask) :
    condHolds ccc s = true ↔ s.flags &&& ccc ≠ 0#3 := by
  by_cases hAll : ccc = 0b111#3
  · simp [condHolds, hAll, oneHot_and_all _ h]
  · by_cases hNone : ccc = 0b000#3
    · simp [condHolds, hNone]
    · simp [condHolds, hAll, hNone, h]

/-! ### The immediate operand -/

/-- imm16 as the machine forms it (30_encoding.md R78). -/
theorem immOperand_toNat (imm8 : Imm8) (s : State) :
    (immOperand imm8 s).toNat = s.ui.toNat % 256 * 256 + imm8.toNat := by
  rw [immOperand, Word.ofBytes_toNat, Word.loByte_toNat]

/-- The machine has MUL where CF bit 0 is 1 (10_state.md R38). -/
theorem hasMul_iff (s : State) : s.hasMul = true ↔ s.cf.toNat % 2 = 1 := by
  simp [State.hasMul, BitVec.getLsbD, Nat.testBit_zero]

theorem multiply_of_hasMul {s : State} (h : s.hasMul = true) (rd : Reg) (v : Word) (i : Instr) :
    multiply rd v i s = writeResult rd (product (s.reg rd) v) s :=
  if_pos h

/-- Where a register holds the immediate operand, the two formats run one operation on equal operands. -/
theorem immediateActsAs_of_toNat {v : Nat} {imm8 : Imm8} {s : State} (hv : (immOperand imm8 s).toNat = v) :
    ImmediateActsAs v imm8 s := by
  intro rd rs ed ccc hrs
  have hop : immOperand imm8 s = regOperand rs s := BitVec.eq_of_toNat_eq (hv.trans hrs.symm)
  have hMul (hcf : s.cf.toNat % 2 = 1) : exec (.mulI rd imm8) s = exec (.mulR rd rs) s := calc
    exec (.mulI rd imm8) s = writeResult rd (product (s.reg rd) (immOperand imm8 s)) s :=
      multiply_of_hasMul ((hasMul_iff s).mpr hcf) ..
    _ = writeResult rd (product (s.reg rd) (regOperand rs s)) s := by rw [hop]
    _ = exec (.mulR rd rs) s := (multiply_of_hasMul ((hasMul_iff s).mpr hcf) ..).symm
  exact
    ⟨congrArg (fun v => Host.Outcome.next (load rd v s)) hop, congrArg (readMemory rd · s) hop,
      congrArg (writeMemory rd · s) hop, congrArg (fun v => orRaise (writeExt ed v s) id) hop,
      hMul,
      congrArg (fun v => onlyFlags (s.reg rd - v) s) hop, congrArg (fun v => onlyFlags (s.reg rd &&& v) s) hop,
      congrArg (jump ccc · s) hop, congrArg (call ccc · s) hop,
      congrArg (fun v => writeResult rd (s.reg rd + v) s) hop, congrArg (fun v => writeResult rd (s.reg rd - v) s) hop,
      congrArg (fun v => writeResult rd (~~~ v) s) hop, congrArg (fun v => writeResult rd (s.reg rd &&& v) s) hop,
      congrArg (fun v => writeResult rd (s.reg rd ||| v) s) hop,
      congrArg (fun v => writeResult rd (s.reg rd ^^^ v) s) hop⟩

/-! ### UI before an operation

Every shared operation ends its cycle by a write of UI and reads it nowhere, so another UI before it changes no outcome. -/

section
variable (u : Word) (s : State)

theorem endCycle_withUi (newIp newUi : Word) : ({ s with ui := u } : State).endCycle newIp newUi = s.endCycle newIp newUi := rfl

theorem load_withUi (rd : Reg) (v : Word) : load rd v { s with ui := u } = load rd v s :=
  endCycle_withUi u (s.setReg rd v) _ _

theorem writeResult_withUi (rd : Reg) (r : Word) : writeResult rd r { s with ui := u } = writeResult rd r s :=
  congrArg Host.Outcome.next (endCycle_withUi u ((s.setReg rd r).setFlags r) _ _)

theorem onlyFlags_withUi (r : Word) : onlyFlags r { s with ui := u } = onlyFlags r s :=
  congrArg Host.Outcome.next (endCycle_withUi u (s.setFlags r) _ _)

theorem multiply_withUi (rd : Reg) (v : Word) (i : Instr) : multiply rd v i { s with ui := u } = multiply rd v i s :=
  congrArg (fun r => if s.hasMul then r else raise (.featureAbsent (encode i))) (writeResult_withUi u s rd _)

theorem readMemory_withUi (rd : Reg) (a : Word) : readMemory rd a { s with ui := u } = readMemory rd a s :=
  congrArg (orRaise (memRead a s)) (funext (load_withUi u s rd))

theorem writeMemory_withUi (rd : Reg) (a : Word) : writeMemory rd a { s with ui := u } = writeMemory rd a s := by
  unfold writeMemory memWrite
  split <;> rfl

theorem writeExt_withUi (ed : ExtReg) (v : Word) : writeExt ed v { s with ui := u } = writeExt ed v s := by
  cases ed <;> rfl

theorem jump_withUi (ccc : CondMask) (target : Word) : jump ccc target { s with ui := u } = jump ccc target s := rfl

theorem call_withUi (ccc : CondMask) (target : Word) : call ccc target { s with ui := u } = call ccc target s := rfl

end

/-! ### Results written to Rd -/

/-- `x[Rd] <- r; SetFlags(r)` in the terms of the statements. -/
theorem writeResult_aluEffect (rd : Reg) (r : Word) (s : State) : ∃ t, writeResult rd r s = .next t ∧ AluEffect rd r s t :=
  ⟨_, rfl, State.reg_setReg_same s rd r, fun _ hq => State.reg_setReg_other s r hq, setFlags_shows r (s.setReg rd r), rfl,
    ⟨State.ipIn_toNat s, rfl⟩, ⟨rfl, rfl, rfl, rfl⟩, fun _ => rfl⟩

/-- What a result leaves in UI and Rd, whatever UI held. -/
theorem writeResult_ui_reg (rd : Reg) (r : Word) (s : State) :
    ∃ t, writeResult rd r s = .next t ∧ t.ui = 0#16 ∧ t.reg rd = r := by
  obtain ⟨t, ht, hrd, -, -, -, ⟨-, hui⟩, -⟩ := writeResult_aluEffect rd r s
  exact ⟨t, ht, hui, hrd⟩

/-! ### Shifts -/

theorem shiftLeft_toNat (x : Word) (n : Nat) : (x <<< n).toNat = x.toNat * 2 ^ n % 65536 := by
  rw [BitVec.toNat_shiftLeft, Nat.shiftLeft_eq]

theorem shiftRight_toNat (x : Word) (n : Nat) : (x >>> n).toNat = x.toNat / 2 ^ n := by
  rw [BitVec.toNat_ushiftRight, Nat.shiftRight_eq_div_pow]

theorem immAmount_mod (n : Nat) : immAmount (n % 16) = n % 16 := Nat.mod_mod n 16

/-- The word of the statements is the encoder's (30_encoding.md R93). -/
theorem wordI_eq_encodeI (opcode : BitVec 5) (b : BitVec 3) (imm8 : Imm8) :
    wordI opcode.toNat b imm8 = encodeI opcode b imm8 := by
  apply BitVec.eq_of_toNat_eq
  rw [encodeI_toNat, wordI, BitVec.toNat_ofNat]
  omega

theorem decode_wordI {opcode : BitVec 5} (h : opcode ≠ 0#5) (b : BitVec 3) (imm8 : Imm8) :
    decode (wordI opcode.toNat b imm8) = decodeI opcode b imm8 := by
  rw [wordI_eq_encodeI, decode_encodeI _ _ _ h]

/-- An I-format SLL takes its amount from bits 3:0 of the word. -/
theorem decode_wordI_sll (b : BitVec 3) (imm8 : Imm8) :
    decode (wordI 0x1E b imm8) = .instr (.sllI (.ofBits b) (imm8.toNat % 16)) := by
  rw [← imm4Of_eq]
  exact decode_wordI (opcode := 0x1E#5) (by decide) b imm8

/-- An I-format SLR takes its amount from bits 3:0 of the word. -/
theorem decode_wordI_slr (b : BitVec 3) (imm8 : Imm8) :
    decode (wordI 0x1F b imm8) = .instr (.slrI (.ofBits b) (imm8.toNat % 16)) := by
  rw [← imm4Of_eq]
  exact decode_wordI (opcode := 0x1F#5) (by decide) b imm8

end Sys2Proof.Machine
end

section
/-! PROOFS. The statements of 30_encoding.md about condition codes, immediates and shift amounts. -/

namespace Sys2Proof.Proofs

open Sys2Proof.Machine

/-- Settles O6: the mask of a decoded word is its field B, and one-hot flags meet a mask in the one flag that is set. -/
theorem conditionCodesStandWhereTheFirstOperandWould : Obligations.ConditionCodesStandWhereTheFirstOperandWould := by
  refine ⟨fun w i ccc hd hc => ?_, fun w => ?_, fun ccc s hs => ?_⟩
  · obtain ⟨-, rfl⟩ := decode_condMask_iff.mp ⟨i, hd, hc⟩
    exact ⟨fieldB_getLsbD w (by decide), fieldB_getLsbD w (by decide), fieldB_getLsbD w (by decide),
      fun rs hi => by rw [decode_target hd hi, fieldC_toNat]⟩
  · rw [exists_comm]
    simp only [decode_condMask_iff, exists_and_left, exists_eq', and_true]
  · rw [condHolds_iff_of_oneHot ((oneHot_iff s).mpr hs), and_ne_zero_iff_shared_bit]
    simp only [flags_getLsbD s (show 2 < 3 by decide), flags_getLsbD s (show 1 < 3 by decide),
      flags_getLsbD s (show 0 < 3 by decide)]

/-- Settles O33: the two formats share one operation at op2, and no shared operation reads UI. -/
theorem immediatesAreZeroExtendedUnderTheUpperByte : Obligations.ImmediatesAreZeroExtendedUnderTheUpperByte := by
  refine ⟨fun imm8 s => immediateActsAs_of_toNat (immOperand_toNat imm8 s), fun rd rs ed ccc u s i hi => ?_⟩
  simp only [List.mem_cons, List.not_mem_nil, or_false] at hi
  obtain rfl | rfl | rfl | rfl | rfl | rfl | rfl | rfl | rfl | hi := hi
  · exact congrArg Host.Outcome.next (load_withUi u s rd _)
  · exact readMemory_withUi u s rd _
  · exact writeMemory_withUi u s rd _
  · exact congrArg (orRaise · id) (writeExt_withUi u s ed _)
  · exact multiply_withUi u s rd _ _
  · exact onlyFlags_withUi u s _
  · exact onlyFlags_withUi u s _
  · exact jump_withUi u s ccc _
  · exact call_withUi u s ccc _
  · obtain rfl | rfl | rfl | rfl | rfl | rfl | rfl | rfl := hi <;> exact writeResult_withUi u s rd _

/-- Settles O34: decoding keeps bits 3:0 of the word alone, and each shift is one result written under the default end of the cycle. -/
theorem shiftAmountsAreTheLowFourBits : Obligations.ShiftAmountsAreTheLowFourBits := by
  intro rd rs b imm8 other u s
  refine ⟨fun h => ?_, ?_, ?_, ?_, ?_⟩
  · simp only [decode_wordI_sll, decode_wordI_slr, h, and_self]
  · obtain ⟨t, ht, hui, hrd⟩ := writeResult_ui_reg rd (s.reg rd <<< immAmount (imm8.toNat % 16)) { s with ui := u }
    exact ⟨t, by rw [decode_wordI_sll, Reg.ofBits_toBits], ht, hui, by rw [hrd, shiftLeft_toNat, immAmount_mod]⟩
  · obtain ⟨t, ht, hui, hrd⟩ := writeResult_ui_reg rd (s.reg rd >>> immAmount (imm8.toNat % 16)) { s with ui := u }
    exact ⟨t, by rw [decode_wordI_slr, Reg.ofBits_toBits], ht, hui, by rw [hrd, shiftRight_toNat, immAmount_mod]⟩
  · obtain ⟨t, ht, hui, hrd⟩ := writeResult_ui_reg rd (s.reg rd <<< regAmount rs s) { s with ui := u }
    exact ⟨t, ht, hui, by rw [hrd, shiftLeft_toNat, regAmount_eq]⟩
  · obtain ⟨t, ht, hui, hrd⟩ := writeResult_ui_reg rd (s.reg rd >>> regAmount rs s) { s with ui := u }
    exact ⟨t, ht, hui, by rw [hrd, shiftRight_toNat, regAmount_eq]⟩

end Sys2Proof.Proofs
end

section
/-! SUPPORT. R-format words of the statements (30_encoding.md R93), and a value moved into Rd (41_data_movement.md). -/

namespace Sys2Proof.Machine

/-- The word of the statements is the encoder's (30_encoding.md R93). -/
theorem wordR_eq_encodeR (opcode : BitVec 5) (b c : BitVec 3) : wordR opcode.toNat b c = encodeR opcode b c := by
  apply BitVec.eq_of_toNat_eq
  rw [encodeR_toNat, wordR, BitVec.toNat_ofNat]
  omega

theorem decode_wordR (opcode : BitVec 5) (b c : BitVec 3) : decode (wordR opcode.toNat b c) = decodeR opcode b c := by
  rw [wordR_eq_encodeR, decode_encodeR]

/-- `x[Rd] <- v` under the default end of the cycle, in the terms of the statements. -/
theorem load_moveEffect (rd : Reg) (v : Word) (s : State) : MoveEffect rd v s (load rd v s) :=
  ⟨State.reg_setReg_same s rd v, fun _ hq => State.reg_setReg_other s v hq, rfl, rfl, ⟨State.ipIn_toNat s, rfl⟩,
    ⟨rfl, rfl, rfl, rfl⟩, fun _ => rfl⟩

end Sys2Proof.Machine
end

section
/-! PROOFS. The statement of 41_data_movement.md about MOV. -/

namespace Sys2Proof.Proofs

open Sys2Proof.Machine

/-- Settles O12: in both formats MOV is one load of op2 into Rd, and op2 of the I-format is imm16. -/
theorem movCopiesTheSecondOperand : Obligations.MovCopiesTheSecondOperand := by
  intro rd rs imm8 s
  have hR : decode (wordR 0x05 rd.toBits rs.toBits) = .instr (.movR (.ofBits rd.toBits) (.ofBits rs.toBits)) :=
    decode_wordR 0x05#5 rd.toBits rs.toBits
  have hI : decode (wordI 0x05 rd.toBits imm8) = .instr (.movI (.ofBits rd.toBits) imm8) :=
    decode_wordI (opcode := 0x05#5) (by decide) rd.toBits imm8
  simp only [Reg.ofBits_toBits] at hR hI
  refine ⟨hR, hI, ⟨_, rfl, load_moveEffect rd (s.reg rs) s⟩, ⟨_, rfl, ?_⟩⟩
  rw [← immOperand_eq_imm16]
  exact load_moveEffect rd (immOperand imm8 s) s

end Sys2Proof.Proofs
end

section
/-! SUPPORT. Flags set by a result that is written to no register (42_mul_cmp_tst.md R121, R122). -/

namespace Sys2Proof.Machine

/-- `SetFlags(r)` under the default end of the cycle, in the terms of the statements. -/
theorem onlyFlags_flagsEffect (r : Word) (s : State) : ∃ t, onlyFlags r s = .next t ∧ FlagsEffect r s t :=
  ⟨_, rfl, fun q => State.reg_setFlags s r q, setFlags_shows r s, rfl, ⟨State.ipIn_toNat s, rfl⟩, ⟨rfl, rfl, rfl, rfl⟩,
    fun _ => rfl⟩

end Sys2Proof.Machine
end

section
/-! PROOFS. The statement of 42_mul_cmp_tst.md about TST. -/

namespace Sys2Proof.Proofs

open Sys2Proof.Machine

/-- Settles O21: in both formats TST sets the flags of Rd AND op2 alone, and op2 of the I-format is imm16. -/
theorem tstSetsTheFlagsOfTheAnd : Obligations.TstSetsTheFlagsOfTheAnd := by
  intro rd rs imm8 s
  have hR : decode (wordR 0x13 rd.toBits rs.toBits) = .instr (.tstR (.ofBits rd.toBits) (.ofBits rs.toBits)) :=
    decode_wordR 0x13#5 rd.toBits rs.toBits
  have hI : decode (wordI 0x13 rd.toBits imm8) = .instr (.tstI (.ofBits rd.toBits) imm8) :=
    decode_wordI (opcode := 0x13#5) (by decide) rd.toBits imm8
  simp only [Reg.ofBits_toBits] at hR hI
  refine ⟨hR, hI, onlyFlags_flagsEffect (s.reg rd &&& s.reg rs) s, ?_⟩
  rw [← immOperand_eq_imm16]
  exact onlyFlags_flagsEffect (s.reg rd &&& immOperand imm8 s) s

end Sys2Proof.Proofs
end

section
/-! SUPPORT. Instructions with operands Rd and op2 in both formats, and the results they write (44_alu_logic_shift.md). -/

namespace Sys2Proof.Machine

/-- The words of both formats decode to the instructions that the decoder's two tables give under one opcode (30_encoding.md R92). -/
theorem decode_words {opcode : BitVec 5} (h : opcode ≠ 0#5) (instrR : Reg → Reg → Instr) (instrI : Reg → Imm8 → Instr)
    (hR : ∀ b c, decodeR opcode b c = .instr (instrR (.ofBits b) (.ofBits c)))
    (hI : ∀ b imm8, decodeI opcode b imm8 = .instr (instrI (.ofBits b) imm8)) (rd rs : Reg) (imm8 : Imm8) :
    decode (wordR opcode.toNat rd.toBits rs.toBits) = .instr (instrR rd rs) ∧
      decode (wordI opcode.toNat rd.toBits imm8) = .instr (instrI rd imm8) := by
  constructor
  · rw [decode_wordR, hR, Reg.ofBits_toBits, Reg.ofBits_toBits]
  · rw [decode_wordI h, hI, Reg.ofBits_toBits]

/-- A result computed from the immediate operand, in the terms of the statements. -/
theorem writeResult_aluEffect_imm16 (op : Word → Word) (rd : Reg) (imm8 : Imm8) (s : State) :
    ∃ t, writeResult rd (op (immOperand imm8 s)) s = .next t ∧ AluEffect rd (op (imm16 imm8 s)) s t := by
  rw [← immOperand_eq_imm16]
  exact writeResult_aluEffect rd (op (immOperand imm8 s)) s

/-- All 16 bits inverted is the difference from 0xFFFF (44_alu_logic_shift.md R132). -/
theorem not_eq_ofNat (x : Word) : ~~~x = BitVec.ofNat 16 (65535 - x.toNat) := by
  apply BitVec.eq_of_toNat_eq
  rw [BitVec.toNat_not, BitVec.toNat_ofNat]
  omega

end Sys2Proof.Machine
end

section
/-! PROOFS. The statements of 44_alu_logic_shift.md about NOT, AND, ORR and XOR. -/

namespace Sys2Proof.Proofs

open Sys2Proof.Machine

/-- Settles O27: in both formats NOT writes the complement of op2, which is 65535 minus it. -/
theorem notWritesTheComplementOfTheOperand : Obligations.NotWritesTheComplementOfTheOperand := by
  intro rd rs imm8 s
  obtain ⟨hR, hI⟩ := decode_words (opcode := 0x1A#5) (by decide) .notR .notI (fun _ _ => rfl) (fun _ _ => rfl) rd rs imm8
  simp only [← not_eq_ofNat]
  exact ⟨hR, hI, writeResult_aluEffect rd (~~~ s.reg rs) s, writeResult_aluEffect_imm16 (~~~ ·) rd imm8 s⟩

/-- Settles O28: in both formats AND writes Rd AND op2. -/
theorem andWritesTheBitwiseAnd : Obligations.AndWritesTheBitwiseAnd := by
  intro rd rs imm8 s
  obtain ⟨hR, hI⟩ := decode_words (opcode := 0x1B#5) (by decide) .andR .andI (fun _ _ => rfl) (fun _ _ => rfl) rd rs imm8
  exact ⟨hR, hI, writeResult_aluEffect rd (s.reg rd &&& s.reg rs) s, writeResult_aluEffect_imm16 (s.reg rd &&& ·) rd imm8 s⟩

/-- Settles O29: in both formats ORR writes Rd OR op2. -/
theorem orrWritesTheBitwiseOr : Obligations.OrrWritesTheBitwiseOr := by
  intro rd rs imm8 s
  obtain ⟨hR, hI⟩ := decode_words (opcode := 0x1C#5) (by decide) .orrR .orrI (fun _ _ => rfl) (fun _ _ => rfl) rd rs imm8
  exact ⟨hR, hI, writeResult_aluEffect rd (s.reg rd ||| s.reg rs) s, writeResult_aluEffect_imm16 (s.reg rd ||| ·) rd imm8 s⟩

/-- Settles O30: in both formats XOR writes Rd XOR op2. -/
theorem xorWritesTheBitwiseXor : Obligations.XorWritesTheBitwiseXor := by
  intro rd rs imm8 s
  obtain ⟨hR, hI⟩ := decode_words (opcode := 0x1D#5) (by decide) .xorR .xorI (fun _ _ => rfl) (fun _ _ => rfl) rd rs imm8
  exact ⟨hR, hI, writeResult_aluEffect rd (s.reg rd ^^^ s.reg rs) s, writeResult_aluEffect_imm16 (s.reg rd ^^^ ·) rd imm8 s⟩

end Sys2Proof.Proofs
end

section
/-! SUPPORT. Decoding against encoding (30_encoding.md section 5): what a mask keeps of a word, and what the two tables of the decoder
give back to the encoder. -/

namespace Sys2Proof

open Sys2Proof.Machine Sys2Proof.Laws.EncodedOpcode

/-! ### Words under a mask -/

theorem encodeR_and (opcode p z : BitVec 5) (b c m n : BitVec 3) :
    encodeR opcode b c &&& ((z ++ m) ++ (n ++ p)) = encodeR (opcode &&& p) (b &&& m) (c &&& n) :=
  calc
    encodeR opcode b c &&& ((z ++ m) ++ (n ++ p)) = ((0#5 ++ b) &&& (z ++ m)) ++ ((c ++ opcode) &&& (n ++ p)) :=
      BitVec.and_append
    _ = encodeR (opcode &&& p) (b &&& m) (c &&& n) := by
      rw [BitVec.and_append, BitVec.and_append, BitVec.zero_and, encodeR]

theorem encodeI_and (opcode p : BitVec 5) (b m : BitVec 3) (imm8 n : Imm8) :
    encodeI opcode b imm8 &&& ((p ++ m) ++ n) = encodeI (opcode &&& p) (b &&& m) (imm8 &&& n) :=
  calc
    encodeI opcode b imm8 &&& ((p ++ m) ++ n) = ((opcode ++ b) &&& (p ++ m)) ++ (imm8 &&& n) := BitVec.and_append
    _ = encodeI (opcode &&& p) (b &&& m) (imm8 &&& n) := by rw [BitVec.and_append, encodeI]

/-! What each mask keeps: everything; all but field C; format and opcode of R-format; all but imm8; the opcode of I-format; all but
the high half of imm8 (30_encoding.md R76, R79, R80). -/

section
variable (w : Word) (opcode : BitVec 5) (b c : BitVec 3) (imm8 : Imm8)

theorem and_FFFF : w &&& 0xFFFF#16 = w := BitVec.and_allOnes

theorem encodeR_and_FF1F : encodeR opcode b c &&& 0xFF1F#16 = encodeR opcode b 0#3 := by
  have h := encodeR_and opcode (.allOnes 5) (.allOnes 5) b c (.allOnes 3) 0#3
  rwa [BitVec.and_allOnes, BitVec.and_allOnes, BitVec.and_zero] at h

theorem encodeR_and_F81F : encodeR opcode b c &&& 0xF81F#16 = encodeR opcode 0#3 0#3 := by
  have h := encodeR_and opcode (.allOnes 5) (.allOnes 5) b c 0#3 0#3
  rwa [BitVec.and_allOnes, BitVec.and_zero, BitVec.and_zero] at h

theorem encodeI_and_FF00 : encodeI opcode b imm8 &&& 0xFF00#16 = encodeI opcode b 0#8 := by
  have h := encodeI_and opcode (.allOnes 5) b (.allOnes 3) imm8 0#8
  rwa [BitVec.and_allOnes, BitVec.and_allOnes, BitVec.and_zero] at h

theorem encodeI_and_F800 : encodeI opcode b imm8 &&& 0xF800#16 = encodeI opcode 0#3 0#8 := by
  have h := encodeI_and opcode (.allOnes 5) b 0#3 imm8 0#8
  rwa [BitVec.and_allOnes, BitVec.and_zero, BitVec.and_zero] at h

theorem encodeI_and_FF0F : encodeI opcode b imm8 &&& 0xFF0F#16 = encodeI opcode b (imm8 &&& 0x0F#8) := by
  have h := encodeI_and opcode (.allOnes 5) b (.allOnes 3) imm8 0x0F#8
  rwa [BitVec.and_allOnes, BitVec.and_allOnes] at h

theorem topBits_and (m : Word) : topBits (w &&& m) = topBits w &&& topBits m := BitVec.extractLsb'_and

theorem lowBits_and (m : Word) : lowBits (w &&& m) = lowBits w &&& lowBits m := BitVec.extractLsb'_and

/-- The mask of an R-format row selects format and opcode (30_encoding.md R76). -/
theorem and_F81F_iff : w &&& 0xF81F#16 = encodeR opcode 0#3 0#3 ↔ topBits w = 0#5 ∧ lowBits w = opcode := by
  constructor
  · intro h
    have hTop := (topBits_and w 0xF81F#16).symm.trans (congrArg topBits h)
    have hLow := (lowBits_and w 0xF81F#16).symm.trans (congrArg lowBits h)
    rw [show topBits 0xF81F#16 = .allOnes 5 by decide, BitVec.and_allOnes, topBits_encodeR] at hTop
    rw [show lowBits 0xF81F#16 = .allOnes 5 by decide, BitVec.and_allOnes, lowBits_encodeR] at hLow
    exact ⟨hTop, hLow⟩
  · rintro ⟨hTop, rfl⟩
    conv_lhs => rw [word_eq_encode w, if_pos hTop]
    exact encodeR_and_F81F ..

/-- The mask of an I-format row selects the opcode, which is not 0 (30_encoding.md R74, R76). -/
theorem and_F800_iff (hz : opcode ≠ 0#5) : w &&& 0xF800#16 = encodeI opcode 0#3 0#8 ↔ topBits w = opcode := by
  constructor
  · intro h
    have hTop := (topBits_and w 0xF800#16).symm.trans (congrArg topBits h)
    rwa [show topBits 0xF800#16 = .allOnes 5 by decide, BitVec.and_allOnes, topBits_encodeI] at hTop
  · rintro rfl
    conv_lhs => rw [word_eq_encode w, if_neg hz]
    exact encodeI_and_F800 ..

end

/-! ### The bits a format's opcode ignores -/

/-- `ignoredBits` of an R-format word, by its opcode. -/
def ignoredOfR (opcode : BitVec 5) : Word :=
  match opcode.toNat with
  | 0x00 => 0x07E0#16
  | 0x01 | 0x0E | 0x0F | 0x16 => 0x00E0#16
  | _ => 0x0000#16

/-- `ignoredBits` of an I-format word, by its opcode. -/
def ignoredOfI (opcode : BitVec 5) : Word :=
  match opcode.toNat with
  | 0x01 | 0x0E | 0x0F | 0x16 => 0x00FF#16
  | 0x1E | 0x1F => 0x00F0#16
  | _ => 0x0000#16

theorem ignoredBits_encodeR (opcode : BitVec 5) (b c : BitVec 3) : ignoredBits (encodeR opcode b c) = ignoredOfR opcode := by
  have hTop : (encodeR opcode b c).toNat / 2048 = 0 := by rw [encodeR_toNat]; omega
  have hLow : (encodeR opcode b c).toNat % 32 = opcode.toNat := by rw [encodeR_toNat]; omega
  rw [ignoredBits, hTop, hLow, ignoredOfR]
  split <;> simp_all

theorem ignoredBits_encodeI {opcode : BitVec 5} (hz : opcode ≠ 0#5) (b : BitVec 3) (imm8 : Imm8) :
    ignoredBits (encodeI opcode b imm8) = ignoredOfI opcode := by
  have hTop : (encodeI opcode b imm8).toNat / 2048 = opcode.toNat := by rw [encodeI_toNat]; omega
  have hn : opcode.toNat ≠ 0 := fun h => hz (BitVec.eq_of_toNat_eq h)
  rw [ignoredBits, hTop, ignoredOfI]
  split <;> simp_all

/-! ### The shift amount (30_encoding.md R79) -/

theorem imm4Of_lt (imm8 : Imm8) : imm4Of imm8 < 16 := by
  rw [imm4Of_eq]
  omega

theorem imm4Of_ofNat {imm4 : Nat} (h : imm4 < 16) : imm4Of (BitVec.ofNat 8 imm4) = imm4 := by
  rw [imm4Of_eq, BitVec.toNat_ofNat]
  omega

theorem ofNat_imm4Of : ∀ imm8 : Imm8, BitVec.ofNat 8 (imm4Of imm8) = imm8 &&& 0x0F#8 := by decide

/-! ### The two tables of the decoder -/

theorem opcode_eq_ofNat {opcode : BitVec 5} {n : Nat} (h : opcode.toNat = n) : opcode = BitVec.ofNat 5 n := by
  rw [← h, BitVec.ofNat_toNat, BitVec.setWidth_eq]

/-- Every row of the R-format table: the encoder puts the opcode and the used fields back. -/
theorem encode_of_decodeR {opcode : BitVec 5} {b c : BitVec 3} {i : Instr} (h : decodeR opcode b c = .instr i) :
    i.wellFormed = true ∧ encode i = encodeR opcode b c &&& ~~~ignoredOfR opcode := by
  unfold decodeR at h
  split at h <;> cases h
  all_goals
    obtain rfl := opcode_eq_ofNat ‹_›
    simp [ignoredOfR, encode, Instr.wellFormed, encodeR_and_F81F, encodeR_and_FF1F, and_FFFF]

/-- Every row of the I-format table: the encoder puts the opcode and the used fields back. -/
theorem encode_of_decodeI {opcode : BitVec 5} {b : BitVec 3} {imm8 : Imm8} {i : Instr} (h : decodeI opcode b imm8 = .instr i) :
    i.wellFormed = true ∧ encode i = encodeI opcode b imm8 &&& ~~~ignoredOfI opcode := by
  unfold decodeI at h
  split at h <;> cases h
  all_goals
    obtain rfl := opcode_eq_ofNat ‹_›
    simp [ignoredOfI, encode, Instr.wellFormed, encodeI_and_FF00, encodeI_and_FF0F, and_FFFF, imm4Of_lt, ofNat_imm4Of]

/-- A decoded instruction stands in the table under the format and opcode of its word. -/
theorem place_of_decode {w : Word} {i : Instr} (h : decode w = .instr i) :
    place i = if topBits w = 0#5 then .rFormat (lowBits w) else .iFormat (topBits w) := by
  unfold decode at h
  split at h
  · rw [if_pos ‹_›]
    unfold decodeR at h
    split at h <;> cases h
    all_goals exact congrArg Place.rFormat (opcode_eq_ofNat ‹_›).symm
  · rw [if_neg ‹_›]
    unfold decodeI at h
    split at h <;> cases h
    all_goals exact congrArg Place.iFormat (opcode_eq_ofNat ‹_›).symm

/-- The R-format table rejects exactly the blank opcodes (30_encoding.md R81). -/
theorem decodeR_rejects_iff (opcode : BitVec 5) (b c : BitVec 3) :
    (∃ why, decodeR opcode b c = .rejected why) ↔ opcode.toNat ∈ blankOpcodes := by
  have := opcode.isLt
  unfold decodeR
  split <;> simp_all [blankOpcodes]
  omega

/-- The I-format table, read at an opcode that is not 0, rejects exactly the blank opcodes and 0C (30_encoding.md R81, R82). -/
theorem decodeI_rejects_iff {opcode : BitVec 5} (hz : opcode ≠ 0#5) (b : BitVec 3) (imm8 : Imm8) :
    (∃ why, decodeI opcode b imm8 = .rejected why) ↔ opcode.toNat ∈ 0x0C :: blankOpcodes := by
  have := opcode.isLt
  have hn : opcode.toNat ≠ 0 := fun h => hz (BitVec.eq_of_toNat_eq h)
  unfold decodeI
  split <;> simp_all [blankOpcodes]
  omega

/-- The decoder rejects exactly the reserved words (30_encoding.md R82). -/
theorem decode_rejects_iff (w : Word) : (∃ why, decode w = .rejected why) ↔ reservedWord w := by
  have hTop : topBits w = 0#5 ↔ w.toNat / 0x800 = 0 := by
    rw [← topBits_toNat, ← BitVec.toNat_inj, BitVec.toNat_ofNat]
  by_cases h : topBits w = 0#5
  · rw [decode, if_pos h, decodeR_rejects_iff, lowBits_toNat]
    simp [reservedWord, hTop.mp h, blankOpcodes]
  · rw [decode, if_neg h, decodeI_rejects_iff h, topBits_toNat]
    simp only [reservedWord, hTop.not.mp h, false_and, false_or]

/-! ### Rows of the opcode table -/

/-- A row is its R-format opcode, if the decoder reads the row's constructor under it and that constructor has no other place. -/
theorem rowIs_of_rFormat (opcode : BitVec 5) {row : Instr → Bool}
    (h : (∀ b c, ∃ i, decodeR opcode b c = .instr i ∧ row i = true) ∧ ∀ i, row i = true → place i = .rFormat opcode) :
    RowIs 0xF81F#16 (encodeR opcode 0#3 0#3) row := by
  obtain ⟨hDecode, hPlace⟩ := h
  intro w
  rw [and_F81F_iff]
  constructor
  · rintro ⟨hTop, rfl⟩
    obtain ⟨i, hd, hr⟩ := hDecode (fieldB w) (fieldC w)
    exact ⟨i, by rw [decode, if_pos hTop, hd], hr⟩
  · rintro ⟨i, hd, hr⟩
    have hp := (place_of_decode hd).symm.trans (hPlace i hr)
    split at hp <;> cases hp
    exact ⟨‹_›, rfl⟩

/-- A row is its I-format opcode, if the decoder reads the row's constructor under it and that constructor has no other place. -/
theorem rowIs_of_iFormat (opcode : BitVec 5) {row : Instr → Bool}
    (h : (∀ b imm8, ∃ i, decodeI opcode b imm8 = .instr i ∧ row i = true) ∧ ∀ i, row i = true → place i = .iFormat opcode)
    (hz : opcode ≠ 0#5 := by decide) : RowIs 0xF800#16 (encodeI opcode 0#3 0#8) row := by
  obtain ⟨hDecode, hPlace⟩ := h
  intro w
  rw [and_F800_iff w opcode hz]
  constructor
  · rintro rfl
    obtain ⟨i, hd, hr⟩ := hDecode (fieldB w) (fieldImm8 w)
    exact ⟨i, by rw [decode, if_neg hz, hd], hr⟩
  · rintro ⟨i, hd, hr⟩
    have hp := (place_of_decode hd).symm.trans (hPlace i hr)
    split at hp <;> cases hp
    rfl

end Sys2Proof
end

section
/-! PROOFS. The statements of 30_encoding.md about the decoder, the encoder and the opcode table. -/

namespace Sys2Proof.Proofs

open Sys2Proof.Machine

/-- Settles O3: in each format the decoder reads the fields the encoder wrote; a shift amount below 16 survives its four bits. -/
theorem decodeOfEncodeIsTheInstruction : Obligations.DecodeOfEncodeIsTheInstruction := by
  intro i hi
  cases i with
  | nop | hltR | retR | pshR | popR | movR | rdmR | wrmR | rdxR | wrxR | mulR | cmpR | tstR | jmpR | calR | addR | subR | notR | andR
  | orrR | xorR | sllR | slrR =>
    simp [encode, decode_encodeR, decodeR]
  | hltI | retI | pshI | popI | movI | rdmI | wrmI | wrxI | mulI | cmpI | tstI | jmpI | calI | addI | subI | notI | andI | orrI | xorI =>
    simp [encode, decode_encodeI, decodeI]
  | sllI rd imm4 | slrI rd imm4 =>
    have hImm4 : imm4 < 16 := of_decide_eq_true hi
    simp [encode, decode_encodeI, decodeI, imm4Of_ofNat hImm4]

/-- Settles O4: a word is the encoding of its own fields, and both tables return the fields their opcode uses. -/
theorem encodeOfDecodeIsTheCanonicalWord : Obligations.EncodeOfDecodeIsTheCanonicalWord := by
  intro w i h
  have hw := word_eq_encode w
  unfold decode at h
  split at hw
  · rw [if_pos ‹_›] at h
    rw [hw, ignoredBits_encodeR]
    exact encode_of_decodeR h
  · rw [if_neg ‹_›] at h
    rw [hw, ignoredBits_encodeI ‹_›]
    exact encode_of_decodeI h

/-- Settles O2: the mask selects format and opcode, under which the decoder's tables hold the row's constructor and no other. -/
theorem eachTableRowSelectsExactlyItsConstructor : Obligations.EachTableRowSelectsExactlyItsConstructor := by
  refine ⟨rowIs_of_rFormat 0x00#5 ?_, rowIs_of_rFormat 0x01#5 ?_, rowIs_of_iFormat 0x01#5 ?_, rowIs_of_rFormat 0x05#5 ?_,
    rowIs_of_iFormat 0x05#5 ?_, rowIs_of_rFormat 0x06#5 ?_, rowIs_of_iFormat 0x06#5 ?_, rowIs_of_rFormat 0x07#5 ?_,
    rowIs_of_iFormat 0x07#5 ?_, rowIs_of_rFormat 0x0C#5 ?_, rowIs_of_rFormat 0x0D#5 ?_, rowIs_of_iFormat 0x0D#5 ?_,
    rowIs_of_rFormat 0x0E#5 ?_, rowIs_of_iFormat 0x0E#5 ?_, rowIs_of_rFormat 0x0F#5 ?_, rowIs_of_iFormat 0x0F#5 ?_,
    rowIs_of_rFormat 0x10#5 ?_, rowIs_of_iFormat 0x10#5 ?_, rowIs_of_rFormat 0x11#5 ?_, rowIs_of_iFormat 0x11#5 ?_,
    rowIs_of_rFormat 0x13#5 ?_, rowIs_of_iFormat 0x13#5 ?_, rowIs_of_rFormat 0x14#5 ?_, rowIs_of_iFormat 0x14#5 ?_,
    rowIs_of_rFormat 0x15#5 ?_, rowIs_of_iFormat 0x15#5 ?_, rowIs_of_rFormat 0x16#5 ?_, rowIs_of_iFormat 0x16#5 ?_,
    rowIs_of_rFormat 0x18#5 ?_, rowIs_of_iFormat 0x18#5 ?_, rowIs_of_rFormat 0x19#5 ?_, rowIs_of_iFormat 0x19#5 ?_,
    rowIs_of_rFormat 0x1A#5 ?_, rowIs_of_iFormat 0x1A#5 ?_, rowIs_of_rFormat 0x1B#5 ?_, rowIs_of_iFormat 0x1B#5 ?_,
    rowIs_of_rFormat 0x1C#5 ?_, rowIs_of_iFormat 0x1C#5 ?_, rowIs_of_rFormat 0x1D#5 ?_, rowIs_of_iFormat 0x1D#5 ?_,
    rowIs_of_rFormat 0x1E#5 ?_, rowIs_of_iFormat 0x1E#5 ?_, rowIs_of_rFormat 0x1F#5 ?_, rowIs_of_iFormat 0x1F#5 ?_⟩
  all_goals
    refine ⟨fun _ _ => ⟨_, rfl, rfl⟩, fun i h => ?_⟩
    split at h <;> cases h
    rfl

/-- Settles O5: a word is rejected by the table of its format. -/
theorem exactlyTheReservedWordsAreRejected : Obligations.ExactlyTheReservedWordsAreRejected := decode_rejects_iff

/-- Settles O1: each of the twelve words is read by evaluation. -/
theorem wordsOfTheSpecDecodeToTheirInstructions : Obligations.WordsOfTheSpecDecodeToTheirInstructions := by
  unfold Obligations.WordsOfTheSpecDecodeToTheirInstructions
  decide

end Sys2Proof.Proofs
end

section
/-! SUPPORT. What each shared operation needs to complete and what it then leaves, and the frame of each field over the instruction
set. -/

namespace Sys2Proof.Machine

/-! ### Operations on memory: completion -/

theorem readMemory_eq_next {rd : Reg} {a : Word} {s t : State} :
    readMemory rd a s = .next t ↔ a.toNat % 2 = 0 ∧ t = load rd (wordAt s a.toNat) s := by
  simp only [readMemory, orRaise_eq_next, memRead_eq_ok, readWord_eq_wordAt, and_assoc, exists_and_left, exists_eq_left]

theorem writeMemory_eq_next {rd : Reg} {a : Word} {s t : State} :
    writeMemory rd a s = .next t ↔
      a.toNat % 2 = 0 ∧ t = ({ s with mem := s.mem.writeWord a.toNat (s.reg rd) } : State).advance := by
  simp only [writeMemory, orRaise_eq_next, memWrite_eq_ok, and_assoc, exists_and_left, exists_eq_left]

theorem push_eq_next {rd : Reg} {s t : State} :
    push rd s = .next t ↔ s.pushAddr.toNat % 2 = 0 ∧
      t = { ({ s with mem := s.mem.writeWord s.pushAddr.toNat (s.reg rd) } : State).advance with sp := s.pushAddr } := by
  simp only [push, orRaise_eq_next, memWrite_eq_ok, and_assoc, exists_and_left, exists_eq_left]

theorem pop_eq_next {rd : Reg} {s t : State} :
    pop rd s = .next t ↔ s.sp.toNat % 2 = 0 ∧ t = { load rd (wordAt s s.sp.toNat) s with sp := s.popSp } := by
  simp only [pop, orRaise_eq_next, memRead_eq_ok, readWord_eq_wordAt, and_assoc, exists_and_left, exists_eq_left]

/-! ### Rd after a load -/

@[simp] theorem reg_load_same (rd : Reg) (v : Word) (s : State) : (load rd v s).reg rd = v := State.reg_setReg_same s rd v

theorem reg_load_other {rd q : Reg} (v : Word) (s : State) (h : q ≠ rd) : (load rd v s).reg q = s.reg q :=
  State.reg_setReg_other s v h

/-! ### WRX: what each field takes (41_data_movement.md R115) -/

section
variable {ed : ExtReg} {v : Word} {s t : State} (h : writeExt ed v s = .ok t)
include h

theorem writeExt_ip : t.ip = if ed = .ip then v else s.ipIn := by cases ed <;> cases h <;> rfl

theorem writeExt_sp : t.sp = if ed = .sp then v else s.sp := by cases ed <;> cases h <;> rfl

theorem writeExt_ui : t.ui = if ed = .ui then v else 0#16 := by cases ed <;> cases h <;> rfl

theorem writeExt_fl : t.fl = if ed = .fl then (s.putFlags (v.extractLsb' 0 3)).fl else s.fl := by cases ed <;> cases h <;> rfl

theorem writeExt_regs : t.regs = s.regs := by cases ed <;> cases h <;> rfl

theorem writeExt_halted : t.halted = s.halted := by cases ed <;> cases h <;> rfl

theorem writeExt_mem : t.mem = s.mem := by cases ed <;> cases h <;> rfl

theorem writeExt_draws : t.draws = s.draws := by cases ed <;> cases h <;> rfl

end

/-! ### Writes of FL[2:0] -/

theorem putFlags_fl_mod (s : State) (f : BitVec 3) : (s.putFlags f).fl.toNat % 8 = f.toNat := by
  rw [putFlags_fl_toNat]
  omega

theorem putFlags_fl_div (s : State) (f : BitVec 3) : (s.putFlags f).fl.toNat / 8 = s.fl.toNat / 8 := by
  rw [putFlags_fl_toNat]
  omega

theorem low3_toNat (v : Word) : (v.extractLsb' 0 3).toNat = v.toNat % 8 := by
  rw [extract_toNat]
  omega

/-! ### Kinds of instructions that exclude each other -/

section
variable {s : State} {i : Instr}

theorem setsFlags_of_extWritten {p : ExtReg × Word} (h : extWritten s i = some p) : setsFlags i = false := by
  cases i with
  | wrxR | wrxI => rfl
  | _ => cases h

theorem setsFlags_of_transfer {p : CondMask × Word} (h : transfer s i = some p) : setsFlags i = false := by
  cases i with
  | jmpR | jmpI | calR | calI | retR | retI => rfl
  | _ => cases h

theorem storeAddr_of_setsFlags (h : setsFlags i = true) : storeAddr s i = none := by
  cases i with
  | wrmR | wrmI | pshR | pshI => cases h
  | _ => rfl

theorem storeAddr_of_destination {rd : Reg} (h : destination i = some rd) : storeAddr s i = none := by
  cases i with
  | wrmR | wrmI | pshR | pshI => cases h
  | _ => rfl

theorem storeAddr_of_extWritten {p : ExtReg × Word} (h : extWritten s i = some p) : storeAddr s i = none := by
  cases i with
  | wrmR | wrmI | pshR | pshI => cases h
  | _ => rfl

theorem storeAddr_of_transfer {p : CondMask × Word} (h : transfer s i = some p) : storeAddr s i = none := by
  cases i with
  | wrmR | wrmI | pshR | pshI => cases h
  | _ => rfl

end

/-- PSH and POP, in either format. -/
def usesStack : Instr → Bool
  | .pshR _ | .pshI _ | .popR _ | .popI _ => true
  | _ => false

/-! ### One field each, over every instruction -/

section
variable {s t : State} {i : Instr}

/-- Where UI comes from (10_state.md R30): a WRX, or the end of the cycle. -/
theorem Completes.ui_cases (h : Completes s i t) :
    (∃ ed v, extWritten s i = some (ed, v) ∧ t.ui = if ed = .ui then v else 0#16) ∨ (extWritten s i = none ∧ t.ui = 0#16) := by
  cases h with
  | idle | compute | compare | move | read | write | push | pop =>
    obtain ⟨he, -⟩ : Straight s i := ‹_›
    exact .inr ⟨he, rfl⟩
  | wrx ed v he _ hw => exact .inl ⟨ed, v, he, writeExt_ui hw⟩
  | halt ccc _ hs => exact .inr ⟨hs.1, by cases condHolds ccc s <;> rfl⟩
  | jump ccc _ _ _ he | call ccc _ _ _ he => exact .inr ⟨he, by cases condHolds ccc s <;> rfl⟩

/-- Where IP comes from (10_state.md R26): a WRX, a control transfer, or the next index. -/
theorem Completes.ip_cases (h : Completes s i t) :
    (∃ ed v, extWritten s i = some (ed, v) ∧ transfer s i = none ∧ t.ip = if ed = .ip then v else s.ipIn) ∨
      (∃ ccc target, extWritten s i = none ∧ transfer s i = some (ccc, target) ∧
        t.ip = if condHolds ccc s then target else s.ipIn) ∨
      (Straight s i ∧ t.ip = s.ipIn) := by
  cases h with
  | idle | compute | compare | move | read | write | push | pop => exact .inr (.inr ⟨‹Straight s i›, rfl⟩)
  | wrx ed v he ht hw => exact .inl ⟨ed, v, he, ht, writeExt_ip hw⟩
  | halt ccc _ hs => exact .inr (.inr ⟨hs, by cases condHolds ccc s <;> rfl⟩)
  | jump ccc target ht _ he | call ccc target ht _ he =>
    exact .inr (.inl ⟨ccc, target, he, ht, by cases condHolds ccc s <;> rfl⟩)

/-- SP stays but for WRX, PSH and POP (10_state.md R28). -/
theorem Completes.sp_eq (h : Completes s i t) (hw : extWritten s i = none) (hu : usesStack i = false) : t.sp = s.sp := by
  cases h with
  | idle | compute | compare | move | read | write => rfl
  | push _ hi | pop _ hi => obtain rfl | rfl := hi <;> cases hu
  | wrx ed v he => cases hw.symm.trans he
  | halt ccc | jump ccc | call ccc => cases condHolds ccc s <;> rfl

/-- Where FL comes from (10_state.md R33 to R35): SetFlags, a WRX, or the state before. -/
theorem Completes.fl_cases (h : Completes s i t) :
    (setsFlags i = true ∧ ∃ r, t.fl = (s.setFlags r).fl) ∨
      (setsFlags i = false ∧ ∃ ed v, extWritten s i = some (ed, v) ∧
        t.fl = if ed = .fl then (s.putFlags (v.extractLsb' 0 3)).fl else s.fl) ∨
      (setsFlags i = false ∧ extWritten s i = none ∧ t.fl = s.fl) := by
  cases h with
  | compute _ r _ hf | compare r _ hf => exact .inl ⟨hf, r, rfl⟩
  | wrx ed v he _ hw => exact .inr (.inl ⟨setsFlags_of_extWritten he, ed, v, he, writeExt_fl hw⟩)
  | idle hi hs => exact .inr (.inr ⟨hi ▸ rfl, hs.1, rfl⟩)
  | move _ _ _ hf _ hs => exact .inr (.inr ⟨hf, hs.1, rfl⟩)
  | read _ _ hi _ _ hs | write _ _ hi _ _ hs =>
    exact .inr (.inr ⟨by obtain ⟨_, rfl⟩ | ⟨_, rfl⟩ := hi <;> rfl, hs.1, rfl⟩)
  | push _ hi _ hs | pop _ hi _ hs => exact .inr (.inr ⟨by obtain rfl | rfl := hi <;> rfl, hs.1, rfl⟩)
  | halt ccc hi hs =>
    exact .inr (.inr ⟨by obtain rfl | rfl := hi <;> rfl, hs.1, by cases condHolds ccc s <;> rfl⟩)
  | jump ccc _ ht _ he | call ccc _ ht _ he =>
    exact .inr (.inr ⟨setsFlags_of_transfer ht, he, by cases condHolds ccc s <;> rfl⟩)

/-- Only HLT sets `halted` (10_state.md R40). -/
theorem Completes.halted_eq (h : Completes s i t) (hi : isHalt i = false) : t.halted = s.halted := by
  cases h with
  | idle | compute | compare | move | read | write | push | pop => rfl
  | wrx _ _ _ _ hw => exact writeExt_halted hw
  | halt _ hlt => obtain rfl | rfl := hlt <;> cases hi
  | jump ccc | call ccc => cases condHolds ccc s <;> rfl

/-- No instruction clears `halted`. -/
theorem Completes.halted_of_halted (h : Completes s i t) (hh : s.halted = true) : t.halted = true := by
  cases h with
  | idle | compute | compare | move | read | write | push | pop => exact hh
  | wrx _ _ _ _ hw => exact (writeExt_halted hw).trans hh
  | halt ccc => cases condHolds ccc s <;> [exact hh; rfl]
  | jump ccc | call ccc => cases condHolds ccc s <;> exact hh

/-- A register that is not the destination stays (10_state.md R20). -/
theorem Completes.reg_eq (h : Completes s i t) {r : Reg} (hr : destination i ≠ some r) : t.reg r = s.reg r := by
  have hOther (rd : Reg) (v : Word) (hd : destination i = some rd) : (s.setReg rd v).reg r = s.reg r :=
    State.reg_setReg_other s v fun e => hr (e ▸ hd)
  cases h with
  | idle | compare | write | push => rfl
  | compute rd v hd | move rd v hd => exact hOther rd v hd
  | read rd a hi => exact hOther rd _ (by obtain ⟨_, rfl⟩ | ⟨_, rfl⟩ := hi <;> rfl)
  | pop rd hi => exact hOther rd _ (by obtain rfl | rfl := hi <;> rfl)
  | wrx _ _ _ _ hw => exact State.reg_congr (writeExt_regs hw) r
  | halt ccc | jump ccc | call ccc => cases condHolds ccc s <;> rfl

/-- Memory takes the one word an instruction stores, or stays (20_memory.md R57). -/
theorem Completes.mem_cases (h : Completes s i t) :
    (∃ a v, storeAddr s i = some (a, v) ∧ a.toNat % 2 = 0 ∧ t.mem = s.mem.writeWord a.toNat v) ∨
      (storeAddr s i = none ∧ t.mem = s.mem) := by
  cases h with
  | write rd a _ hst he => exact .inl ⟨a, _, hst, he, rfl⟩
  | push rd hi he => exact .inl ⟨_, _, by obtain rfl | rfl := hi <;> rfl, he, rfl⟩
  | idle hi => exact .inr ⟨hi ▸ rfl, rfl⟩
  | compute _ _ _ hf | compare _ _ hf => exact .inr ⟨storeAddr_of_setsFlags hf, rfl⟩
  | move _ _ hd => exact .inr ⟨storeAddr_of_destination hd, rfl⟩
  | read _ _ hi => exact .inr ⟨by obtain ⟨_, rfl⟩ | ⟨_, rfl⟩ := hi <;> rfl, rfl⟩
  | pop _ hi => exact .inr ⟨by obtain rfl | rfl := hi <;> rfl, rfl⟩
  | wrx _ _ he _ hw => exact .inr ⟨storeAddr_of_extWritten he, writeExt_mem hw⟩
  | halt ccc hi => exact .inr ⟨by obtain rfl | rfl := hi <;> rfl, by cases condHolds ccc s <;> rfl⟩
  | jump ccc _ ht | call ccc _ ht => exact .inr ⟨storeAddr_of_transfer ht, by cases condHolds ccc s <;> rfl⟩

/-! ### Flags -/

/-- SetFlags leaves exactly one of L, E, G (10_state.md R33). -/
theorem flagsOneHot_of_setFlags {r : Word} (h : t.fl = (s.setFlags r).fl) : FlagsOneHot t := by
  obtain ⟨hLow, -⟩ := setFlags_shows r s
  simp only [FlagsOneHot, h, hLow]
  split
  · simp
  · split <;> simp

/-- Bits 15:3 of FL never change (10_state.md R35). -/
theorem Completes.fl_reserved (h : Completes s i t) : t.fl.toNat / 8 = s.fl.toNat / 8 := by
  obtain ⟨-, r, hfl⟩ | ⟨-, ed, v, -, hfl⟩ | ⟨-, -, hfl⟩ := h.fl_cases
  · rw [hfl]
    exact putFlags_fl_div s _
  · rw [hfl]
    split
    · exact putFlags_fl_div s _
    · rfl
  · rw [hfl]

/-- After a flag-setting instruction FL[2:0] is one-hot (10_state.md R34, R36). -/
theorem Completes.flagsOneHot (h : Completes s i t) (hf : setsFlags i = true) : FlagsOneHot t := by
  obtain ⟨-, r, hfl⟩ | ⟨hn, -⟩ | ⟨hn, -⟩ := h.fl_cases
  · exact flagsOneHot_of_setFlags hfl
  · cases hf.symm.trans hn
  · cases hf.symm.trans hn

/-! ### The step -/

/-- Everything a step that goes on can have done (40_cycle_nop_hlt.md R100). -/
theorem step_eq_next :
    step s = .next t ↔ (s.halted = true ∧ t = s) ∨
      (s.halted = false ∧ ∃ i, fetchInstr s = .ok i ∧ exec i s = .next t) := by
  cases hh : s.halted
  · cases hf : fetchInstr s <;> simp [step, hh, hf, raise]
  · simp [step, hh, eq_comm]

end

end Sys2Proof.Machine
end

section
/-! PROOFS. The statements of 10_state.md and 40_cycle_nop_hlt.md about single fields, and the invariant of the machine. -/

namespace Sys2Proof.Proofs

open Sys2Proof.Machine

/-- Settles O53: a completed instruction stores at most one word inside memory, keeps FL[15:3] and CF. -/
theorem everyStepKeepsTheMachineInvariant : Obligations.EveryStepKeepsTheMachineInvariant := by
  rintro s t ⟨hwf, hfl, hcf⟩ h
  obtain ⟨-, rfl⟩ | ⟨-, i, -, hexec⟩ := step_eq_next.mp h
  · exact ⟨⟨hwf, hfl, hcf⟩, rfl⟩
  · have hc := completes_of_exec hexec
    have hmem : t.mem.wf = true := by
      obtain ⟨a, v, -, he, hm⟩ | ⟨-, hm⟩ := hc.mem_cases
      · rw [hm]
        exact Memory.wf_writeWord hwf (by have := a.isLt; simp only [Memory.size]; omega) v
      · rwa [hm]
    have hres : t.flReserved := by
      have := hc.fl_reserved
      simp only [State.flReserved] at hfl ⊢
      omega
    exact ⟨⟨hmem, hres, by rwa [State.cfLegal, hc.cf]⟩, hc.cf⟩

/-- Settles O35, by the source of UI in every completed instruction. -/
theorem uiLivesForOneInstruction : Obligations.UiLivesForOneInstruction := by
  intro i s t h
  obtain ⟨ed, v, he, hui⟩ | ⟨he, hui⟩ := (completes_of_exec h).ui_cases
  · rw [he]
    cases ed <;> exact hui
  · rw [he, hui]

/-- Settles O36, by the source of IP in every completed instruction. -/
theorem ipIsTheNextIndexUnlessWritten : Obligations.IpIsTheNextIndexUnlessWritten := by
  refine ⟨fun i s t h => ?_, fun rd s => ?_, fun i s t ccc target h hCall ht hc => ?_⟩
  · simp only [← State.ipIn_eq_ofNat]
    obtain ⟨ed, v, he, ht, hip⟩ | ⟨ccc, target, he, ht, hip⟩ | ⟨⟨he, ht⟩, hip⟩ := (completes_of_exec h).ip_cases
    · simp only [he, ht]
      cases ed <;> exact hip
    · simpa only [he, ht] using hip
    · simpa only [he, ht] using hip
  · exact ⟨load rd s.ipIn s, rfl, by rw [reg_load_same, State.ipIn_toNat]⟩
  · obtain ⟨_, _, _, hn, -⟩ | ⟨_, _, -, ht', hlr⟩ | ⟨⟨-, hn⟩, -⟩ := (completes_of_exec h).lr_cases
    · cases hn.symm.trans ht
    · cases ht'.symm.trans ht
      rw [hlr, hCall, hc]
      exact State.ipIn_toNat s
    · cases hn.symm.trans ht

/-- Settles O38: PSH and POP move SP by 2, a WRX writes it under SP's number, and nothing else reaches it. -/
theorem spIsWrittenByPshPopAndWrxOnly : Obligations.SpIsWrittenByPshPopAndWrxOnly := by
  intro i s t h
  cases i with
  | pshR rd | pshI rd =>
    obtain ⟨-, rfl⟩ := push_eq_next.mp h
    exact pushAddr_toNat s
  | popR rd | popI rd =>
    obtain ⟨-, rfl⟩ := pop_eq_next.mp h
    exact popSp_toNat s
  | wrxR ed rs =>
    obtain ⟨_, hw, rfl⟩ := orRaise_eq_next.mp h
    cases ed <;> exact writeExt_sp hw
  | wrxI ed imm8 =>
    obtain ⟨_, hw, rfl⟩ := orRaise_eq_next.mp h
    rw [immOperand_eq_imm16] at hw
    cases ed <;> exact writeExt_sp hw
  | _ => exact (completes_of_exec h).sp_eq rfl rfl

/-- Settles O39, by the source of FL in every completed instruction. -/
theorem flIsWrittenByFlagSettersAndWrxOnly : Obligations.FlIsWrittenByFlagSettersAndWrxOnly := by
  intro i s t h
  have hc := completes_of_exec h
  refine ⟨hc.fl_reserved, ?_⟩
  obtain ⟨hf, r, hfl⟩ | ⟨hf, ed, v, he, hfl⟩ | ⟨hf, he, hfl⟩ := hc.fl_cases
  · simp only [hf]
    exact hc.flagsOneHot hf
  · simp only [hf, he]
    cases ed with
    | fl =>
      show t.fl.toNat % 8 = v.toNat % 8
      rw [hfl, if_pos rfl, putFlags_fl_mod, low3_toNat]
    | _ => exact hfl
  · simpa only [hf, he] using hfl

/-- Settles O41: only the source of FL that is a WRX can end one-hot flags. -/
theorem onlyWrxToFlEndsOneHotFlags : Obligations.OnlyWrxToFlEndsOneHotFlags := by
  intro s t hs h
  obtain ⟨-, rfl⟩ | ⟨-, i, hfetch, hexec⟩ := step_eq_next.mp h
  · exact .inl hs
  · obtain ⟨-, hd⟩ := fetchInstr_eq_ok.mp hfetch
    obtain ⟨-, r, hfl⟩ | ⟨-, ed, v, he, hfl⟩ | ⟨-, -, hfl⟩ := (completes_of_exec hexec).fl_cases
    · exact .inl (flagsOneHot_of_setFlags hfl)
    · by_cases hed : ed = .fl
      · exact .inr ⟨i, v, hd, hed ▸ he⟩
      · rw [if_neg hed] at hfl
        exact .inl (by rwa [FlagsOneHot, hfl])
    · exact .inl (by rwa [FlagsOneHot, hfl])

/-- Settles O43: only the operations that write their destination touch a register. -/
theorem onlyTheDestinationRegisterChanges : Obligations.OnlyTheDestinationRegisterChanges :=
  fun _ _ _ _ h hr => (completes_of_exec h).reg_eq hr

end Sys2Proof.Proofs
end

section
/-! SUPPORT. Which fault each shared operation raises (60_exceptions.md R151), and that the operations pass on a field they do not use:
`halted` everywhere but in HLT, memory where there is no access. -/

namespace Sys2Proof.Machine

/-! ### Operations: faults -/

section
variable {rd : Reg} {a v : Word} {s : State} {f : Fault}

theorem readMemory_eq_fault : readMemory rd a s = .fault f ↔ a.toNat % 2 = 1 ∧ f = .unalignedAccess a :=
  orRaise_eq_fault.trans memRead_eq_error

theorem writeMemory_eq_fault : writeMemory rd a s = .fault f ↔ a.toNat % 2 = 1 ∧ f = .unalignedAccess a :=
  orRaise_eq_fault.trans memWrite_eq_error

theorem push_eq_fault : push rd s = .fault f ↔ s.pushAddr.toNat % 2 = 1 ∧ f = .unalignedAccess s.pushAddr :=
  orRaise_eq_fault.trans memWrite_eq_error

theorem pop_eq_fault : pop rd s = .fault f ↔ s.sp.toNat % 2 = 1 ∧ f = .unalignedAccess s.sp :=
  orRaise_eq_fault.trans memRead_eq_error

theorem multiply_eq_fault {i : Instr} : multiply rd v i s = .fault f ↔ s.cf.toNat % 2 = 0 ∧ f = .featureAbsent (encode i) := by
  have hMul := hasMul_iff s
  by_cases h : s.hasMul = true
  · have hcf := hMul.mp h
    exact iff_of_false (by simp [multiply, h, writeResult]) (by omega)
  · have hcf : s.cf.toNat % 2 = 0 := by
      have := hMul.not.mp h
      omega
    simp [multiply, h, raise, hcf, eq_comm]

theorem multiply_ne_refused (rd : Reg) (v : Word) (i : Instr) (s : State) (r : Refusal) : multiply rd v i s ≠ .refused r := by
  cases h : s.hasMul <;> simp [multiply, h, raise, writeResult]

end

/-! ### The listed faults, by what an instruction has -/

section
variable {s : State} {i : Instr} {f : Fault}

theorem raises_iff : Raises s i f ↔
    (∃ a, accessAddr s i = some a ∧ a.toNat % 2 = 1 ∧ f = .unalignedAccess a) ∨
      (∃ k, reservedNumber i = some k ∧ f = .reservedExternalRegister k) ∨
      (∃ bits, mulBits i = some bits ∧ s.cf.toNat % 2 = 0 ∧ f = .featureAbsent bits) := by
  constructor
  · rintro (⟨a, ha, ho⟩ | ⟨k, hk⟩ | ⟨bits, hb, hc⟩)
    · exact .inl ⟨a, ha, ho, rfl⟩
    · exact .inr (.inl ⟨k, hk, rfl⟩)
    · exact .inr (.inr ⟨bits, hb, hc, rfl⟩)
  · rintro (⟨a, ha, ho, rfl⟩ | ⟨k, hk, rfl⟩ | ⟨bits, hb, hc, rfl⟩)
    · exact .unaligned a ha ho
    · exact .reservedExternal k hk
    · exact .absent bits hb hc

theorem raises_of_access {a : Word} (ha : accessAddr s i = some a) (hr : reservedNumber i = none) (hm : mulBits i = none) :
    Raises s i f ↔ a.toNat % 2 = 1 ∧ f = .unalignedAccess a := by
  simp [raises_iff, ha, hr, hm]

theorem raises_of_reserved {k : BitVec 3} (ha : accessAddr s i = none) (hr : reservedNumber i = some k) (hm : mulBits i = none) :
    Raises s i f ↔ f = .reservedExternalRegister k := by
  simp [raises_iff, ha, hr, hm]

theorem raises_of_mul {bits : Word} (ha : accessAddr s i = none) (hr : reservedNumber i = none) (hm : mulBits i = some bits) :
    Raises s i f ↔ s.cf.toNat % 2 = 0 ∧ f = .featureAbsent bits := by
  simp [raises_iff, ha, hr, hm]

theorem not_raises (ha : accessAddr s i = none) (hr : reservedNumber i = none) (hm : mulBits i = none) : ¬ Raises s i f := by
  simp [raises_iff, ha, hr, hm]

end

/-- An instruction raises exactly the faults listed for it (60_exceptions.md R151). -/
theorem exec_eq_fault_iff (i : Instr) (s : State) (f : Fault) : exec i s = .fault f ↔ Raises s i f := by
  cases i with
  | rdmR => exact readMemory_eq_fault.trans (raises_of_access rfl rfl rfl).symm
  | rdmI rd imm8 =>
    have hAddr : accessAddr s (.rdmI rd imm8) = some (immOperand imm8 s) := congrArg some (immOperand_eq_imm16 imm8 s).symm
    exact readMemory_eq_fault.trans (raises_of_access hAddr rfl rfl).symm
  | wrmR | wrmI => exact writeMemory_eq_fault.trans (raises_of_access rfl rfl rfl).symm
  | pshR | pshI => exact push_eq_fault.trans (raises_of_access rfl rfl rfl).symm
  | popR | popI => exact pop_eq_fault.trans (raises_of_access rfl rfl rfl).symm
  | mulR rd rs =>
    have hBits : mulBits (.mulR rd rs) = some (encode (.mulR rd rs)) := congrArg some (wordR_eq_encodeR 0x10#5 ..)
    exact multiply_eq_fault.trans (raises_of_mul rfl rfl hBits).symm
  | mulI rd imm8 =>
    have hBits : mulBits (.mulI rd imm8) = some (encode (.mulI rd imm8)) := congrArg some (wordI_eq_encodeI 0x10#5 ..)
    exact multiply_eq_fault.trans (raises_of_mul rfl rfl hBits).symm
  | rdxR rd es =>
    refine orRaise_eq_fault.trans ?_
    cases es with
    | e3 | e6 => exact (by simp [readExt, ExtReg.toBits, eq_comm] : _ ↔ _).trans (raises_of_reserved rfl rfl rfl).symm
    | _ => exact iff_of_false nofun (not_raises rfl rfl rfl)
  | wrxR ed | wrxI ed =>
    refine orRaise_eq_fault.trans ?_
    cases ed with
    | e3 | e6 => exact (by simp [writeExt, ExtReg.toBits, eq_comm] : _ ↔ _).trans (raises_of_reserved rfl rfl rfl).symm
    | _ => exact iff_of_false nofun (not_raises rfl rfl rfl)
  | _ => exact iff_of_false nofun (not_raises rfl rfl rfl)

/-- No arm of `exec` refuses its instruction. -/
theorem exec_ne_refused (i : Instr) (s : State) (r : Refusal) : exec i s ≠ .refused r := by
  cases i with
  | rdmR | rdmI | wrmR | wrmI | pshR | pshI | popR | popI | rdxR | wrxR | wrxI => exact orRaise_ne_refused _ _ r
  | mulR | mulI => exact multiply_ne_refused _ _ _ s r
  | _ => exact nofun

/-! ### A field an operation does not use -/

/-- Change the next state, if there is one. -/
def onNext (g : State → State) : Result → Result
  | .next t => .next (g t)
  | .fault f => .fault f
  | .refused r => .refused r

theorem onNext_eq_fault {g : State → State} {x : Result} {f : Fault} : onNext g x = .fault f ↔ x = .fault f := by
  cases x <;> simp [onNext]

theorem orRaise_onNext {α : Type} {x x' : Except Fault α} {k k' : α → State} (g : State → State) (hx : x' = x)
    (hk : ∀ a, k' a = g (k a)) : orRaise x' k' = onNext g (orRaise x k) := by
  subst hx
  cases x' <;> simp [orRaise, onNext, raise, hk]

/-- A change of the state that the condition does not see passes through a conditional instruction. -/
theorem conditionally_onNext {ccc : CondMask} {act : State → State} (g : State → State) (s : State)
    (hc : condHolds ccc (g s) = condHolds ccc s)
    (hAct : act ((g s).afterTest ccc) = g (act (s.afterTest ccc)))
    (hElse : ((g s).afterTest ccc).advance = g (s.afterTest ccc).advance) :
    conditionally ccc act (g s) = onNext g (conditionally ccc act s) := by
  cases h : condHolds ccc s <;> simp [conditionally, onNext, hc, h, hAct, hElse]

theorem multiply_onNext {rd : Reg} {v : Word} {i : Instr} {g : State → State} {s : State} (hm : (g s).hasMul = s.hasMul)
    (hw : writeResult rd (product ((g s).reg rd) v) (g s) = onNext g (writeResult rd (product (s.reg rd) v) s)) :
    multiply rd v i (g s) = onNext g (multiply rd v i s) := by
  cases h : s.hasMul <;> simp [multiply, hm, h, hw, onNext, raise]

theorem orRaise_memWrite_onNext {a v : Word} {k k' : State → State} (g : State → State) (s : State)
    (h : k' { g s with mem := (g s).mem.writeWord a.toNat v } = g (k { s with mem := s.mem.writeWord a.toNat v })) :
    orRaise (memWrite a v (g s)) k' = onNext g (orRaise (memWrite a v s) k) := by
  cases ha : aligned a <;> simp [memWrite, ha, orRaise, raise, onNext, h]

/-- Set `halted`. -/
abbrev State.withHalted (b : Bool) (s : State) : State := { s with halted := b }

/-- Set the memory. -/
abbrev State.withMem (m : Memory) (s : State) : State := { s with mem := m }

section
variable (b : Bool) (m : Memory) (ccc : CondMask) (target : Word) (s : State)

theorem jump_withHalted : jump ccc target (s.withHalted b) = onNext (State.withHalted b) (jump ccc target s) := by
  refine conditionally_onNext (State.withHalted b) s ?_ ?_ ?_ <;> rfl

theorem call_withHalted : call ccc target (s.withHalted b) = onNext (State.withHalted b) (call ccc target s) := by
  refine conditionally_onNext (State.withHalted b) s ?_ ?_ ?_ <;> rfl

theorem ret_withHalted : ret ccc (s.withHalted b) = onNext (State.withHalted b) (ret ccc s) := by
  refine conditionally_onNext (State.withHalted b) s ?_ ?_ ?_ <;> rfl

theorem halt_withMem : halt ccc (s.withMem m) = onNext (State.withMem m) (halt ccc s) := by
  refine conditionally_onNext (State.withMem m) s ?_ ?_ ?_ <;> rfl

theorem jump_withMem : jump ccc target (s.withMem m) = onNext (State.withMem m) (jump ccc target s) := by
  refine conditionally_onNext (State.withMem m) s ?_ ?_ ?_ <;> rfl

theorem call_withMem : call ccc target (s.withMem m) = onNext (State.withMem m) (call ccc target s) := by
  refine conditionally_onNext (State.withMem m) s ?_ ?_ ?_ <;> rfl

theorem ret_withMem : ret ccc (s.withMem m) = onNext (State.withMem m) (ret ccc s) := by
  refine conditionally_onNext (State.withMem m) s ?_ ?_ ?_ <;> rfl

end

/-- Only HLT sees `halted` (10_state.md R40). -/
theorem exec_withHalted {i : Instr} (hi : isHalt i = false) (b : Bool) (s : State) :
    exec i (s.withHalted b) = onNext (State.withHalted b) (exec i s) := by
  cases i with
  | hltR | hltI => cases hi
  | jmpR ccc | jmpI ccc => exact jump_withHalted b ccc _ s
  | calR ccc | calI ccc => exact call_withHalted b ccc _ s
  | retR ccc | retI ccc => exact ret_withHalted b ccc s
  | mulR | mulI => exact multiply_onNext rfl rfl
  | rdmR | rdmI | popR | popI | rdxR => refine orRaise_onNext (State.withHalted b) ?_ fun _ => ?_ <;> rfl
  | wrmR | wrmI | pshR | pshI => exact orRaise_memWrite_onNext (State.withHalted b) s rfl
  | wrxR ed | wrxI ed => cases ed <;> rfl
  | _ => rfl

theorem exec_withMem {i : Instr} {s : State} (hl : loadAddr s i = none) (hs : storeAddr s i = none) (m : Memory) :
    exec i (s.withMem m) = onNext (State.withMem m) (exec i s) := by
  cases i with
  | rdmR | rdmI | popR | popI => cases hl
  | wrmR | wrmI | pshR | pshI => cases hs
  | hltR ccc | hltI ccc => exact halt_withMem m ccc s
  | jmpR ccc | jmpI ccc => exact jump_withMem m ccc _ s
  | calR ccc | calI ccc => exact call_withMem m ccc _ s
  | retR ccc | retI ccc => exact ret_withMem m ccc s
  | mulR | mulI => exact multiply_onNext rfl rfl
  | rdxR => refine orRaise_onNext (State.withMem m) ?_ fun _ => ?_ <;> rfl
  | wrxR ed | wrxI ed => cases ed <;> rfl
  | _ => rfl

end Sys2Proof.Machine
end

section
/-! SUPPORT. A word stored and loaded, in the terms of the statements (20_memory.md R52, R57), and the bits of FL. -/

namespace Sys2Proof.Machine

/-! ### One word -/

section
variable {a v : Word} {s t : State}

/-- The bytes of a stored word, the high one first, and those it leaves alone. -/
theorem bytes_of_writeWord (h : t.mem = s.mem.writeWord a.toNat v) :
    (t.mem.readByte a.toNat).toNat = v.toNat / 256 ∧ (t.mem.readByte (a.toNat + 1)).toNat = v.toNat % 256 ∧
      SameMemOutside a s t := by
  refine ⟨?_, ?_, fun b hb hb' => ?_⟩
  · rw [h, Memory.readByte_writeWord, if_pos rfl, Word.hiByte_toNat]
  · rw [h, Memory.readByte_writeWord, if_neg (by omega), if_pos rfl, Word.loByte_toNat]
  · rw [h, Memory.readByte_writeWord, if_neg hb, if_neg hb']

theorem wordAt_of_writeWord (h : t.mem = s.mem.writeWord a.toNat v) : wordAt t a.toNat = v := by
  rw [← readWord_eq_wordAt, h, Memory.readWord_writeWord]

/-- A store under the default end of the cycle, with SP then holding `sp`, in the terms of the statements. -/
theorem storeEffect_of_writeWord (a v sp : Word) (s : State) :
    StoreEffect a v sp s { ({ s with mem := s.mem.writeWord a.toNat v } : State).advance with sp := sp } := by
  obtain ⟨hHigh, hLow, hOut⟩ :=
    bytes_of_writeWord (t := { ({ s with mem := s.mem.writeWord a.toNat v } : State).advance with sp := sp }) rfl
  exact ⟨hHigh, hLow, hOut, rfl, fun _ => rfl, rfl, ⟨State.ipIn_toNat s, rfl⟩, rfl, rfl, rfl, rfl⟩

end

/-! ### The address of PSH -/

theorem pushAddr_even {s : State} (h : s.sp.toNat % 2 = 0) : s.pushAddr.toNat % 2 = 0 := by
  rw [pushAddr_toNat]
  omega

theorem pushAddr_odd {s : State} (h : s.sp.toNat % 2 = 1) : s.pushAddr.toNat % 2 = 1 := by
  rw [pushAddr_toNat]
  omega

/-! ### Loads and stores over every instruction -/

section
variable {i : Instr} {s t : State}

/-- A load reads the word at its even address into the destination (20_memory.md R57). -/
theorem loaded_of_exec {a : Word} (h : exec i s = .next t) (ha : loadAddr s i = some a) :
    a.toNat % 2 = 0 ∧ ∃ rd, destination i = some rd ∧ t.reg rd = wordAt s a.toNat := by
  cases i with
  | rdmR rd =>
    cases ha
    obtain ⟨he, rfl⟩ := readMemory_eq_next.mp h
    exact ⟨he, rd, rfl, reg_load_same ..⟩
  | rdmI rd imm8 =>
    cases ha
    obtain ⟨he, rfl⟩ := readMemory_eq_next.mp h
    rw [immOperand_eq_imm16] at he ⊢
    exact ⟨he, rd, rfl, reg_load_same ..⟩
  | popR rd | popI rd =>
    cases ha
    obtain ⟨he, rfl⟩ := pop_eq_next.mp h
    exact ⟨he, rd, rfl, reg_load_same ..⟩
  | _ => cases ha

/-- A store depends on memory only for what it leaves alone. -/
theorem exec_withMem_of_store (hs : storeAddr s i ≠ none) (h : exec i s = .next t) (m : Memory) :
    ∃ m', exec i (s.withMem m) = .next (t.withMem m') := by
  cases i with
  | wrmR | wrmI =>
    obtain ⟨he, rfl⟩ := writeMemory_eq_next.mp h
    exact ⟨_, writeMemory_eq_next.mpr ⟨he, rfl⟩⟩
  | pshR | pshI =>
    obtain ⟨he, rfl⟩ := push_eq_next.mp h
    exact ⟨_, push_eq_next.mpr ⟨he, rfl⟩⟩
  | _ => exact absurd rfl hs

/-- After a store IP is the next index. -/
theorem Completes.ip_of_store {p : Word × Word} (h : Completes s i t) (hs : storeAddr s i = some p) : t.ip = s.ipIn := by
  obtain ⟨_, _, he, -⟩ | ⟨_, _, -, ht, -⟩ | ⟨-, hip⟩ := h.ip_cases
  · cases hs.symm.trans (storeAddr_of_extWritten he)
  · cases hs.symm.trans (storeAddr_of_transfer ht)
  · exact hip

/-- After an instruction that is no WRX to UI, an immediate stands alone (10_state.md R30). -/
theorem Completes.immOperand_toNat_of_ui (h : Completes s i t) (hw : ∀ v, extWritten s i ≠ some (.ui, v)) (imm8 : Imm8) :
    (immOperand imm8 t).toNat = imm8.toNat := by
  have hui : t.ui = 0#16 := by
    obtain ⟨ed, v, he, hui⟩ | ⟨-, hui⟩ := h.ui_cases
    · rwa [if_neg fun hed : ed = .ui => hw v (hed ▸ he)] at hui
    · exact hui
  simp [immOperand_toNat, hui]

end

/-! ### SetFlags, bit by bit (10_state.md R33) -/

/-- FL[2:0] after SetFlags is L, E, G. -/
theorem setFlags_getLsbD (r : Word) (s : State) {k : Nat} (hk : k < 3) : (s.setFlags r).fl.getLsbD k = (flagsOf r).getLsbD k := by
  rw [State.setFlags_fl]
  exact (BitVec.getLsbD_append (x := s.fl.extractLsb' 3 13)).trans (if_pos hk)

theorem three_bits : ∀ l e g : Bool, let f := (BitVec.ofBool l ++ BitVec.ofBool e) ++ BitVec.ofBool g
    f.getLsbD 2 = l ∧ f.getLsbD 1 = e ∧ f.getLsbD 0 = g := by decide

/-- L, E and G are the tests of the result for a sign, for zero, and for neither. -/
theorem flagsOf_getLsbD (r : Word) : (flagsOf r).getLsbD 2 = r.msb ∧ (flagsOf r).getLsbD 1 = decide (r = 0#16) ∧
    (flagsOf r).getLsbD 0 = (!r.msb && !decide (r = 0#16)) :=
  three_bits ..

theorem toInt_pos_iff (r : Word) : 0 < r.toInt ↔ r.msb = false ∧ r ≠ 0#16 := by
  have hz : r = 0#16 ↔ r.toNat = 0 := by rw [← BitVec.toNat_inj, BitVec.toNat_ofNat]
  have := r.isLt
  rw [BitVec.toInt_eq_msb_cond, ne_eq, hz]
  cases r.msb <;> simp <;> omega

end Sys2Proof.Machine
end

section
/-! PROOFS. The statements about memory, faults, `halted` and the flags over every instruction (20_memory.md, 60_exceptions.md,
10_state.md). -/

namespace Sys2Proof.Proofs

open Sys2Proof.Machine

/-- Settles O9: no operation but HLT reads or writes `halted`, and HLT raises no fault. -/
theorem haltedStaysAndIsReadByNoInstruction : Obligations.HaltedStaysAndIsReadByNoInstruction := by
  refine ⟨fun s hh => step_eq_next.mpr (.inl ⟨hh, rfl⟩), fun i s t h hi => (completes_of_exec h).halted_eq hi,
    fun i s t h hh => (completes_of_exec h).halted_of_halted hh, fun i s t b h hi => ?_, fun i s b f => ?_⟩
  · have hb := exec_withHalted hi b s
    rwa [h] at hb
  · cases hi : isHalt i with
    | true =>
      cases i with
      | hltR | hltI => exact iff_of_false nofun nofun
      | _ => cases hi
    | false => rw [show exec i { s with halted := b } = _ from exec_withHalted hi b s, onNext_eq_fault]

/-- Settles O40: the three flags are the sign and zero tests of the result, and the flag setters end in SetFlags. -/
theorem setFlagsIsOneHotOnTheResult : Obligations.SetFlagsIsOneHotOnTheResult := by
  refine ⟨fun r s => ?_, fun i s t hf h => (completes_of_exec h).flagsOneHot hf⟩
  obtain ⟨hL, hE, hG⟩ := flagsOf_getLsbD r
  refine ⟨setFlags_shows r s, rfl, ?_, ?_, ?_⟩
  · rw [setFlags_getLsbD r s (by decide), hL, BitVec.msb_eq_toInt, decide_eq_true_eq]
  · rw [setFlags_getLsbD r s (by decide), hE, decide_eq_true_eq]
  · rw [setFlags_getLsbD r s (by decide), hG, toInt_pos_iff]
    simp

/-- Settles O44: the memory operations are the only ones that see memory, each at the one address of its instruction. -/
theorem fourInstructionsAccessMemory : Obligations.FourInstructionsAccessMemory := by
  refine ⟨fun i s t h => ?_, fun i s t a h ha => loaded_of_exec h ha, fun i s m hl hs => ?_,
    fun i s t m hs h => exec_withMem_of_store hs h m, fun rd s t => ⟨fun h => ?_, fun h => ?_⟩,
    fun rd rs imm8 s t => ⟨fun h => ?_, fun h => ?_⟩⟩
  · obtain ⟨a, v, hst, he, hm⟩ | ⟨hst, hm⟩ := (completes_of_exec h).mem_cases
    · rw [hst]
      exact ⟨he, bytes_of_writeWord hm⟩
    · rw [hst]
      exact hm
  · have hm := exec_withMem hl hs m
    exact ⟨fun t h => by rwa [h] at hm, fun f h => by rwa [h] at hm⟩
  · obtain ⟨-, rfl⟩ := push_eq_next.mp (or_self_iff.mp h)
    exact pushAddr_toNat s
  · obtain ⟨-, rfl⟩ := pop_eq_next.mp (or_self_iff.mp h)
    exact popSp_toNat s
  · obtain h | h := h <;> obtain ⟨-, rfl⟩ := writeMemory_eq_next.mp h <;> exact ⟨fun _ => rfl, rfl⟩
  · obtain h | h := h <;> obtain ⟨-, rfl⟩ := readMemory_eq_next.mp h <;> exact ⟨fun _ hq => reg_load_other _ s hq, rfl⟩

/-- Settles O45: the faults of every instruction are those listed, and none is refused. -/
theorem instructionsStopOnlyOnTheListedFaults : Obligations.InstructionsStopOnlyOnTheListedFaults := by
  refine fun i s => ⟨exec_eq_fault_iff i s, fun hn => ?_, exec_ne_refused i s⟩
  cases h : exec i s with
  | next t => exact ⟨t, rfl⟩
  | fault f => exact absurd ⟨f, (exec_eq_fault_iff i s f).mp h⟩ hn
  | refused r => exact absurd h (exec_ne_refused i s r)

/-- Settles O47: POP loads from the address PSH stored at, and its SP + 2 undoes PSH's SP - 2. -/
theorem popAfterPshCopiesAndRestoresSp : Obligations.PopAfterPshCopiesAndRestoresSp := by
  intro rd rd' s hsp
  let t : State := { ({ s with mem := s.mem.writeWord s.pushAddr.toNat (s.reg rd) } : State).advance with sp := s.pushAddr }
  have hPush : push rd s = .next t := push_eq_next.mpr ⟨pushAddr_even hsp, rfl⟩
  have hPop : pop rd' t = .next _ := pop_eq_next.mpr ⟨pushAddr_even hsp, rfl⟩
  refine ⟨t, _, hPush, hPush, hPop, hPop, ?_, fun _ hq => reg_load_other _ t hq, ?_, ?_⟩
  · exact (reg_load_same rd' _ t).trans (wordAt_of_writeWord rfl)
  · exact BitVec.sub_add_cancel s.sp 2#16
  · obtain ⟨-, -, hOut⟩ := bytes_of_writeWord (s := s) (t := t) rfl
    exact hOut

/-- Settles O48: a WRX to UI leaves its immediate in UI[7:0], and every other instruction leaves 0 there. -/
theorem aWrxToUiGivesTheNextImmediateItsHighByte : Obligations.AWrxToUiGivesTheNextImmediateItsHighByte := by
  intro hi lo s hui
  have hOp : (immOperand lo (s.endCycle s.ipIn (immOperand hi s))).toNat = hi.toNat * 256 + lo.toNat := by
    have := hi.isLt
    rw [immOperand_toNat, State.endCycle_ui, immOperand_toNat, hui, BitVec.toNat_ofNat]
    omega
  refine ⟨s.endCycle s.ipIn (immOperand hi s), rfl, immediateActsAs_of_toNat hOp, fun rd => ?_, fun i n h hw => ?_⟩
  · exact ⟨load rd _ _, rfl, by rw [reg_load_same, hOp], rfl, rfl, fun _ hq => reg_load_other _ _ hq⟩
  · have hLow := (completes_of_exec h).immOperand_toNat_of_ui hw lo
    exact ⟨immediateActsAs_of_toNat hLow, fun rd => ⟨load rd _ n, rfl, by rw [reg_load_same, hLow]⟩⟩

/-- Settles O49: a store moves IP to the next index, and the fetch reads the one memory. -/
theorem aStoreIsSeenByTheNextFetch : Obligations.AStoreIsSeenByTheNextFetch := by
  intro i s t a v hip hst ha h
  have hc := completes_of_exec h
  obtain ⟨_, _, hst', -, hm⟩ | ⟨hn, -⟩ := hc.mem_cases
  · cases hst'.symm.trans hst
    have hnext : t.ip.toNat = s.ip.toNat + 1 := by
      rw [hc.ip_of_store hst, State.ipIn_toNat]
      omega
    rw [fetch_eq_ok, hnext, ← ha, hm, Memory.readWord_writeWord]
    exact ⟨hip, rfl⟩
  · cases hn.symm.trans hst

/-- Settles O46: reads after writes, byte by byte, and the one alignment test of both. -/
theorem memoryReadsBackWhatWasWrittenBigEndian : Obligations.MemoryReadsBackWhatWasWrittenBigEndian := by
  refine fun a v s => ⟨fun he => ?_, fun ho => ⟨memWrite_eq_error.mpr ⟨ho, rfl⟩, memRead_eq_error.mpr ⟨ho, rfl⟩⟩⟩
  obtain ⟨hHigh, hLow, hOut⟩ := bytes_of_writeWord (s := s) (t := s.withMem (s.mem.writeWord a.toNat v)) rfl
  exact ⟨_, memWrite_eq_ok.mpr ⟨he, rfl⟩, memRead_eq_ok.mpr ⟨he, (Memory.readWord_writeWord ..).symm⟩,
    memRead_eq_ok.mpr ⟨he, (readWord_eq_wordAt s a.toNat).symm⟩, hHigh, hLow, hOut, rfl⟩

end Sys2Proof.Proofs
end

section
/-! SUPPORT. Effects of single instructions in the terms of the statements: WRX, the conditional instructions, arithmetic and reset; and
the steps that stop. -/

namespace Sys2Proof.Machine

/-! ### WRX (41_data_movement.md R115) -/

/-- A completed write of an external register, in the terms of the statements. -/
theorem writeExt_effect {ed : ExtReg} {v : Word} {s t : State} (h : writeExt ed v s = .ok t) : ExtWriteEffect ed v s t := by
  have hip : t.ip.toNat = if ed = .ip then v.toNat else (s.ip.toNat + 1) % 65536 := by
    rw [writeExt_ip h]
    split
    · rfl
    · exact State.ipIn_toNat s
  have hLow : t.fl.toNat % 8 = if ed = .fl then v.toNat % 8 else s.fl.toNat % 8 := by
    rw [writeExt_fl h]
    split
    · rw [putFlags_fl_mod, low3_toNat]
    · rfl
  have hHigh : t.fl.toNat / 8 = s.fl.toNat / 8 := by
    rw [writeExt_fl h]
    split
    · exact putFlags_fl_div s _
    · rfl
  exact ⟨hip, writeExt_sp h, writeExt_lr h, writeExt_ui h, hLow, hHigh, writeExt_cf h, State.reg_congr (writeExt_regs h),
    fun b => congrArg (Memory.readByte · b) (writeExt_mem h), writeExt_halted h, writeExt_draws h⟩

/-- A write completes under every number that carries a register (10_state.md R39). -/
theorem wrx_effect {ed : ExtReg} (h : ¬ CarriesNoRegister ed) (v : Word) (s : State) :
    ∃ t, orRaise (writeExt ed v s) id = .next t ∧ ExtWriteEffect ed v s t := by
  cases hw : writeExt ed v s with
  | ok t => exact ⟨t, rfl, writeExt_effect hw⟩
  | error f =>
    cases ed with
    | e3 | e6 => exact absurd (by decide) h
    | _ => cases hw

theorem wrx_fault {ed : ExtReg} (h : CarriesNoRegister ed) (v : Word) (s : State) :
    orRaise (writeExt ed v s) id = .fault (.reservedExternalRegister ed.toBits) := by
  obtain rfl | rfl := h <;> rfl

/-! ### The condition test (40_cycle_nop_hlt.md R101) -/

/-- On one-hot flags the condition is one flag shared with the mask. -/
theorem condHolds_iff_exists {s : State} (h : FlagsOneHot s) (ccc : CondMask) :
    condHolds ccc s = true ↔ ∃ k, k < 3 ∧ s.fl.getLsbD k = true ∧ ccc.getLsbD k = true := by
  rw [condHolds_iff_of_oneHot ((oneHot_iff s).mpr h), and_ne_zero_iff_shared_bit]
  simp only [flags_getLsbD s (show 2 < 3 by decide), flags_getLsbD s (show 1 < 3 by decide), flags_getLsbD s (show 0 < 3 by decide)]
  constructor
  · rintro (h | h | h)
    · exact ⟨2, by decide, h⟩
    · exact ⟨1, by decide, h⟩
    · exact ⟨0, by decide, h⟩
  · rintro ⟨k, hk, h⟩
    interval_cases k
    · exact .inr (.inr h)
    · exact .inr (.inl h)
    · exact .inl h

/-- The model's test has the outcome the statements allow. -/
theorem condHolds_testOutcome (ccc : CondMask) (s : State) : TestOutcome ccc s (condHolds ccc s) := by
  refine ⟨fun hAll => by simp [condHolds, hAll], fun hNone => by simp [condHolds, hNone], fun _ _ hOne => condHolds_iff_exists hOne ccc,
    fun hAll hNone hOne => ?_⟩
  have hLoose := (oneHot_iff s).not.mpr hOne
  simp [condHolds, hAll, hNone, hLoose]

/-- The sequence of draws moves on as the statements say. -/
theorem drawsAfter_of_afterTest {ccc : CondMask} {s t : State} (h : t.draws = (s.afterTest ccc).draws) : DrawsAfter ccc s t := by
  have hOne := oneHot_iff s
  rw [State.afterTest_draws] at h
  refine ⟨fun hFixed => ?_, fun hAll hNone hLoose => ?_⟩
  · rw [h, if_neg]
    obtain rfl | rfl | hFixed := hFixed
    · simp [condLoose]
    · simp [condLoose]
    · simp [condLoose, hOne.mpr hFixed]
  · rw [h, if_pos]
    simpa [condLoose, hAll, hNone] using hOne.not.mpr hLoose

theorem condFrame_of_fields {ccc : CondMask} {s t : State} (hregs : t.regs = s.regs) (hmem : t.mem = s.mem) (hfl : t.fl = s.fl)
    (hsp : t.sp = s.sp) (hcf : t.cf = s.cf) (hui : t.ui = 0#16) (hdraws : t.draws = (s.afterTest ccc).draws) : CondFrame ccc s t :=
  ⟨State.reg_congr hregs, fun b => congrArg (Memory.readByte · b) hmem, hfl, hsp, hcf, hui, drawsAfter_of_afterTest hdraws⟩

theorem halt_effect (ccc : CondMask) (s : State) : ∃ t, halt ccc s = .next t ∧ t.halted = (s.halted || condHolds ccc s) ∧
    Sequential s t ∧ t.lr = s.lr ∧ CondFrame ccc s t := by
  refine ⟨_, rfl, ?_⟩
  cases condHolds ccc s
  · exact ⟨(Bool.or_false _).symm, ⟨State.ipIn_toNat s, rfl⟩, rfl, condFrame_of_fields rfl rfl rfl rfl rfl rfl rfl⟩
  · exact ⟨(Bool.or_true _).symm, ⟨State.ipIn_toNat s, rfl⟩, rfl, condFrame_of_fields rfl rfl rfl rfl rfl rfl rfl⟩

theorem jump_effect (ccc : CondMask) (target : Word) (s : State) : ∃ t, jump ccc target s = .next t ∧
    TransferIp (condHolds ccc s) target s t ∧ t.lr = s.lr ∧ t.halted = s.halted ∧ CondFrame ccc s t := by
  refine ⟨_, rfl, ?_⟩
  cases condHolds ccc s
  · exact ⟨State.ipIn_toNat s, rfl, rfl, condFrame_of_fields rfl rfl rfl rfl rfl rfl rfl⟩
  · exact ⟨rfl, rfl, rfl, condFrame_of_fields rfl rfl rfl rfl rfl rfl rfl⟩

theorem call_effect (ccc : CondMask) (target : Word) (s : State) : ∃ t, call ccc target s = .next t ∧
    TransferIp (condHolds ccc s) target s t ∧
      t.lr.toNat = (if condHolds ccc s then (s.ip.toNat + 1) % 65536 else s.lr.toNat) ∧ t.halted = s.halted ∧ CondFrame ccc s t := by
  refine ⟨_, rfl, ?_⟩
  cases condHolds ccc s
  · exact ⟨State.ipIn_toNat s, rfl, rfl, condFrame_of_fields rfl rfl rfl rfl rfl rfl rfl⟩
  · exact ⟨rfl, State.ipIn_toNat s, rfl, condFrame_of_fields rfl rfl rfl rfl rfl rfl rfl⟩

/-- RET is a jump to LR (43_control_transfer.md R127). -/
theorem ret_eq_jump (ccc : CondMask) (s : State) : ret ccc s = jump ccc s.lr s := rfl

/-! ### Arithmetic as natural numbers (44_alu_logic_shift.md R138) -/

theorem add_eq_ofNat (x y : Word) : x + y = BitVec.ofNat 16 (x.toNat + y.toNat) := by
  apply BitVec.eq_of_toNat_eq
  rw [BitVec.toNat_add, BitVec.toNat_ofNat]

theorem sub_eq_ofNat (x y : Word) : x - y = BitVec.ofNat 16 (x.toNat + (65536 - y.toNat)) := by
  apply BitVec.eq_of_toNat_eq
  rw [BitVec.toNat_sub, BitVec.toNat_ofNat, Nat.add_comm]

theorem shiftLeft_eq_ofNat (x : Word) (n : Nat) : x <<< n = BitVec.ofNat 16 (x.toNat * 2 ^ n) := by
  apply BitVec.eq_of_toNat_eq
  rw [shiftLeft_toNat, BitVec.toNat_ofNat]

theorem shiftRight_eq_ofNat (x : Word) (n : Nat) : x >>> n = BitVec.ofNat 16 (x.toNat / 2 ^ n) := by
  apply BitVec.eq_of_toNat_eq
  rw [shiftRight_toNat, BitVec.toNat_ofNat, Nat.mod_eq_of_lt ((Nat.div_le_self ..).trans_lt x.isLt)]

/-! ### Reset (10_state.md R41, R42) -/

theorem resetWith_flagsOneHot (m : Bool) (f : FlReset) (mem : Memory) : FlagsOneHot (State.resetWith m f mem) := by
  cases f <;> simp [FlagsOneHot, State.resetWith, flResetBits]

theorem resetWith_flReserved (m : Bool) (f : FlReset) (mem : Memory) : (State.resetWith m f mem).flReserved := by
  cases f <;> simp [State.flReserved, State.resetWith, flResetBits]

theorem resetWith_cf (m : Bool) (f : FlReset) (mem : Memory) : (State.resetWith m f mem).cf = if m then 1#16 else 0#16 := by
  cases m <;> rfl

theorem resetWith_inv (m : Bool) (f : FlReset) {mem : Memory} (h : mem.wf = true) : (State.resetWith m f mem).Inv := by
  refine ⟨h, resetWith_flReserved m f mem, ?_⟩
  rw [State.cfLegal, resetWith_cf]
  cases m
  · exact .inl rfl
  · exact .inr rfl

/-! ### Steps that stop (60_exceptions.md R152) -/

theorem step_of_error {s : State} {f : Fault} (hh : s.halted = false) (hf : fetchInstr s = .error f) : step s = .fault f := by
  simp [step, hh, hf, raise]

theorem fetchInstr_of_range {s : State} (h : 0x8000 ≤ s.ip.toNat) : fetchInstr s = .error (.fetchOutOfRange s.ip) := by
  simp [fetchInstr, fetch, Nat.not_lt.mpr h]

theorem fetchInstr_of_rejected {s : State} {why : DecodeError} (h : s.ip.toNat < 0x8000)
    (hd : decode (wordAt s (2 * s.ip.toNat)) = .rejected why) :
    fetchInstr s = .error (.reservedInstruction (wordAt s (2 * s.ip.toNat))) := by
  have hFetch : fetch s = .ok (wordAt s (2 * s.ip.toNat)) := fetch_eq_ok.mpr ⟨h, (readWord_eq_wordAt ..).symm⟩
  simp [fetchInstr, hFetch, hd]

end Sys2Proof.Machine
end

section
/-! PROOFS. The statements about single instructions, the step and reset (40_cycle_nop_hlt.md to 44_alu_logic_shift.md,
70_reset_and_hazards.md). -/

namespace Sys2Proof.Proofs

open Sys2Proof.Machine

/-! ### The step -/

/-- Settles O7: the fetch reads the word of the statement, and the step adds nothing to `exec`. -/
theorem aStepRunsTheDecodedInstruction : Obligations.AStepRunsTheDecodedInstruction :=
  fun _ _ hh hip hd => step_of_fetchInstr hh (fetchInstr_eq_ok.mpr ⟨hip, hd⟩)

/-- Settles O8: the range is tested before memory is read, and the decoder rejects exactly the reserved words. -/
theorem aStepStopsOnFetchRangeThenOnReservedWord : Obligations.AStepStopsOnFetchRangeThenOnReservedWord := by
  refine fun s hh => ⟨fun hip m => step_of_error hh (fetchInstr_of_range (s := s.withMem m) hip), fun hip hw => ?_⟩
  obtain ⟨why, hd⟩ := (decode_rejects_iff _).mpr hw
  exact step_of_error hh (fetchInstr_of_rejected hip hd)

/-! ### NOP and HLT -/

/-- Settles O10: NOP is the default end of the cycle. -/
theorem nopOnlyEndsItsCycle : Obligations.NopOnlyEndsItsCycle := fun b c s =>
  ⟨decode_wordR 0x00#5 b c, s.advance, rfl, ⟨State.ipIn_toNat s, rfl⟩, fun _ => rfl, rfl, rfl, ⟨rfl, rfl, rfl, rfl⟩, fun _ => rfl⟩

/-- Settles O11: both formats are the one conditional halt. -/
theorem hltHaltsWhenItsConditionHolds : Obligations.HltHaltsWhenItsConditionHolds := by
  intro ccc c imm8 s
  obtain ⟨t, ht, hEffect⟩ := halt_effect ccc s
  exact ⟨decode_wordR 0x01#5 ccc c, decode_wordI (opcode := 0x01#5) (by decide) ccc imm8, _, t, condHolds_testOutcome ccc s, ht, ht,
    hEffect⟩

/-! ### Data movement -/

/-- Settles O13: in both formats RDM loads at op2, and op2 of the I-format is imm16. -/
theorem rdmLoadsTheWordAtItsOperand : Obligations.RdmLoadsTheWordAtItsOperand := by
  intro rd rs imm8 s
  obtain ⟨hR, hI⟩ := decode_words (opcode := 0x06#5) (by decide) .rdmR .rdmI (fun _ _ => rfl) (fun _ _ => rfl) rd rs imm8
  rw [← immOperand_eq_imm16]
  exact ⟨hR, hI, fun he => ⟨_, readMemory_eq_next.mpr ⟨he, rfl⟩, load_moveEffect ..⟩,
    fun he => ⟨_, readMemory_eq_next.mpr ⟨he, rfl⟩, load_moveEffect ..⟩,
    fun ho => readMemory_eq_fault.mpr ⟨ho, rfl⟩, fun ho => readMemory_eq_fault.mpr ⟨ho, rfl⟩⟩

/-- Settles O14: in both formats WRM stores Rd at op2, and op2 of the I-format is imm16. -/
theorem wrmStoresAtItsOperand : Obligations.WrmStoresAtItsOperand := by
  intro rd rs imm8 s
  obtain ⟨hR, hI⟩ := decode_words (opcode := 0x07#5) (by decide) .wrmR .wrmI (fun _ _ => rfl) (fun _ _ => rfl) rd rs imm8
  rw [← immOperand_eq_imm16]
  exact ⟨hR, hI, rfl, rfl, fun he => ⟨_, writeMemory_eq_next.mpr ⟨he, rfl⟩, storeEffect_of_writeWord _ _ s.sp s⟩,
    fun he => ⟨_, writeMemory_eq_next.mpr ⟨he, rfl⟩, storeEffect_of_writeWord _ _ s.sp s⟩,
    fun ho => writeMemory_eq_fault.mpr ⟨ho, rfl⟩, fun ho => writeMemory_eq_fault.mpr ⟨ho, rfl⟩⟩

/-- Settles O15: RDX loads what the external register reads as, and stops on the two numbers without one. -/
theorem rdxCopiesAnExternalRegister : Obligations.RdxCopiesAnExternalRegister := by
  intro rd es s
  refine ⟨(decode_wordR 0x0C#5 ..).trans (by simp [decodeR]), fun hReg => ?_, fun hReg => ?_⟩
  · have hRead : readExt es s = .ok (extValue es s) := (readExt_spec es s).trans (if_neg hReg)
    exact ⟨_, orRaise_eq_next.mpr ⟨_, hRead, rfl⟩, load_moveEffect ..⟩
  · exact orRaise_eq_fault.mpr ((readExt_spec es s).trans (if_pos hReg))

/-- Settles O16: in both formats WRX writes op2, and op2 of the I-format is imm16. -/
theorem wrxCopiesIntoAnExternalRegister : Obligations.WrxCopiesIntoAnExternalRegister := by
  intro ed rs imm8 s
  rw [← immOperand_eq_imm16]
  exact ⟨(decode_wordR 0x0D#5 ..).trans (by simp [decodeR]),
    (decode_wordI (opcode := 0x0D#5) (by decide) ..).trans (by simp [decodeI]),
    fun hReg => wrx_effect hReg _ s, fun hReg => wrx_effect hReg _ s, fun hReg => ⟨wrx_fault hReg _ s, wrx_fault hReg _ s⟩⟩

/-- Settles O17: both formats are the one push, which stores at SP - 2. -/
theorem pshStoresBelowTheStackPointer : Obligations.PshStoresBelowTheStackPointer := by
  intro rd c imm8 s
  refine ⟨(decode_wordR 0x0E#5 ..).trans (by simp [decodeR]),
    (decode_wordI (opcode := 0x0E#5) (by decide) ..).trans (by simp [decodeI]), pushAddr_toNat s, fun he => ?_, fun ho => ?_⟩
  · have hPush := push_eq_next (rd := rd).mpr ⟨pushAddr_even he, rfl⟩
    exact ⟨_, hPush, hPush, storeEffect_of_writeWord ..⟩
  · have hPush : push rd s = .fault (.unalignedAccess s.pushAddr) := push_eq_fault.mpr ⟨pushAddr_odd ho, rfl⟩
    exact ⟨hPush, hPush⟩

/-- Settles O18: both formats are the one pop, which loads at SP. -/
theorem popLoadsFromTheStackPointer : Obligations.PopLoadsFromTheStackPointer := by
  intro rd c imm8 s
  refine ⟨(decode_wordR 0x0F#5 ..).trans (by simp [decodeR]),
    (decode_wordI (opcode := 0x0F#5) (by decide) ..).trans (by simp [decodeI]), fun he => ?_, fun ho => ?_⟩
  · have hPop := pop_eq_next (rd := rd).mpr ⟨he, rfl⟩
    exact ⟨_, hPop, hPop, reg_load_same .., popSp_toNat s, fun _ hq => reg_load_other _ s hq, rfl, ⟨State.ipIn_toNat s, rfl⟩,
      ⟨rfl, rfl, rfl, rfl⟩, fun _ => rfl⟩
  · have hPop : pop rd s = .fault (.unalignedAccess s.sp) := pop_eq_fault.mpr ⟨ho, rfl⟩
    exact ⟨hPop, hPop⟩

/-! ### MUL and CMP -/

/-- Settles O19: where the machine has MUL it writes the product, elsewhere it stops with its own word. -/
theorem mulWritesTheTruncatedProduct : Obligations.MulWritesTheTruncatedProduct := by
  intro rd rs imm8 s
  obtain ⟨hR, hI⟩ := decode_words (opcode := 0x10#5) (by decide) .mulR .mulI (fun _ _ => rfl) (fun _ _ => rfl) rd rs imm8
  have hMul (hcf : s.cf.toNat % 2 = 1) (v : Word) (i : Instr) :
      ∃ t, multiply rd v i s = .next t ∧ AluEffect rd (product (s.reg rd) v) s t := by
    rw [multiply_of_hasMul ((hasMul_iff s).mpr hcf)]
    exact writeResult_aluEffect rd _ s
  rw [← immOperand_eq_imm16]
  exact ⟨hR, hI, fun hcf => hMul hcf _ _, fun hcf => hMul hcf _ _, fun hcf =>
    ⟨multiply_eq_fault.mpr ⟨hcf, congrArg Fault.featureAbsent (wordR_eq_encodeR 0x10#5 ..)⟩,
      multiply_eq_fault.mpr ⟨hcf, congrArg Fault.featureAbsent (wordI_eq_encodeI 0x10#5 ..)⟩⟩⟩

/-- Settles O20: in both formats CMP sets the flags of the wrapped difference. -/
theorem cmpSetsTheFlagsOfTheDifference : Obligations.CmpSetsTheFlagsOfTheDifference := by
  intro rd rs imm8 s
  obtain ⟨hR, hI⟩ := decode_words (opcode := 0x11#5) (by decide) .cmpR .cmpI (fun _ _ => rfl) (fun _ _ => rfl) rd rs imm8
  simp only [← sub_eq_ofNat, ← immOperand_eq_imm16]
  exact ⟨hR, hI, onlyFlags_flagsEffect _ s, onlyFlags_flagsEffect _ s⟩

/-! ### Control transfer -/

/-- Settles O22: in both formats JMP is the one conditional jump to op2. -/
theorem jmpGoesToItsOperandWhenItsConditionHolds : Obligations.JmpGoesToItsOperandWhenItsConditionHolds := by
  intro ccc rs imm8 s
  rw [← immOperand_eq_imm16]
  exact ⟨(decode_wordR 0x14#5 ..).trans (by simp [decodeR]), decode_wordI (opcode := 0x14#5) (by decide) ..,
    condHolds ccc s, condHolds_testOutcome ccc s, jump_effect ccc _ s, jump_effect ccc _ s⟩

/-- Settles O23: in both formats CAL is the one conditional call of op2. -/
theorem calSavesTheReturnIndexAndJumps : Obligations.CalSavesTheReturnIndexAndJumps := by
  intro ccc rs imm8 s
  rw [← immOperand_eq_imm16]
  exact ⟨(decode_wordR 0x15#5 ..).trans (by simp [decodeR]), decode_wordI (opcode := 0x15#5) (by decide) ..,
    condHolds ccc s, condHolds_testOutcome ccc s, call_effect ccc _ s, call_effect ccc _ s⟩

/-- Settles O24: both formats of RET are the one conditional jump to LR. -/
theorem retGoesToTheLinkRegister : Obligations.RetGoesToTheLinkRegister := by
  intro ccc c imm8 s
  obtain ⟨t, ht, hEffect⟩ := jump_effect ccc s.lr s
  rw [← ret_eq_jump] at ht
  exact ⟨decode_wordR 0x16#5 ccc c, decode_wordI (opcode := 0x16#5) (by decide) ccc imm8, _, t, condHolds_testOutcome ccc s, ht, ht,
    hEffect⟩

/-! ### Arithmetic and shifts -/

/-- Settles O25: in both formats ADD writes the wrapped sum. -/
theorem addWritesTheWrappedSum : Obligations.AddWritesTheWrappedSum := by
  intro rd rs imm8 s
  obtain ⟨hR, hI⟩ := decode_words (opcode := 0x18#5) (by decide) .addR .addI (fun _ _ => rfl) (fun _ _ => rfl) rd rs imm8
  simp only [← add_eq_ofNat]
  exact ⟨hR, hI, writeResult_aluEffect rd _ s, writeResult_aluEffect_imm16 (s.reg rd + ·) rd imm8 s⟩

/-- Settles O26: in both formats SUB writes the wrapped difference. -/
theorem subWritesTheWrappedDifference : Obligations.SubWritesTheWrappedDifference := by
  intro rd rs imm8 s
  obtain ⟨hR, hI⟩ := decode_words (opcode := 0x19#5) (by decide) .subR .subI (fun _ _ => rfl) (fun _ _ => rfl) rd rs imm8
  simp only [← sub_eq_ofNat]
  exact ⟨hR, hI, writeResult_aluEffect rd _ s, writeResult_aluEffect_imm16 (s.reg rd - ·) rd imm8 s⟩

/-- Settles O31: in both formats SLL shifts by an amount below 16. -/
theorem sllShiftsLeftByTheLowFourBits : Obligations.SllShiftsLeftByTheLowFourBits := by
  intro rd rs imm8 s
  have hR : decode (wordR 0x1E rd.toBits rs.toBits) = .instr (.sllR rd rs) := (decode_wordR 0x1E#5 ..).trans (by simp [decodeR])
  have hI : exec (.sllI rd (imm8.toNat % 16)) s = writeResult rd (s.reg rd <<< (imm8.toNat % 16)) s :=
    congrArg (fun n => writeResult rd (s.reg rd <<< n) s) (immAmount_mod imm8.toNat)
  simp only [← shiftLeft_eq_ofNat, ← regAmount_eq, decode_wordI_sll, Reg.ofBits_toBits, hI]
  exact ⟨hR, trivial, writeResult_aluEffect rd _ s, writeResult_aluEffect rd _ s⟩

/-- Settles O32: in both formats SLR shifts by an amount below 16. -/
theorem slrShiftsRightByTheLowFourBits : Obligations.SlrShiftsRightByTheLowFourBits := by
  intro rd rs imm8 s
  have hR : decode (wordR 0x1F rd.toBits rs.toBits) = .instr (.slrR rd rs) := (decode_wordR 0x1F#5 ..).trans (by simp [decodeR])
  have hI : exec (.slrI rd (imm8.toNat % 16)) s = writeResult rd (s.reg rd >>> (imm8.toNat % 16)) s :=
    congrArg (fun n => writeResult rd (s.reg rd >>> n) s) (immAmount_mod imm8.toNat)
  simp only [← shiftRight_eq_ofNat, ← regAmount_eq, decode_wordI_slr, Reg.ofBits_toBits, hI]
  exact ⟨hR, trivial, writeResult_aluEffect rd _ s, writeResult_aluEffect rd _ s⟩

/-! ### Reset -/

/-- Settles O51: reset writes every field from its arguments, FL one of the three one-hot values. -/
theorem resetIsAsTheSpecStates : Obligations.ResetIsAsTheSpecStates := by
  refine ⟨fun m f mem => ⟨rfl, rfl, rfl, rfl, resetWith_flagsOneHot m f mem, ?_, ?_, rfl, rfl⟩,
    ⟨.greater, .equal, .less, fun _ _ => ⟨rfl, rfl, rfl⟩⟩, rfl⟩
  · exact Nat.div_eq_of_lt (resetWith_flReserved m f mem)
  · rw [resetWith_cf]
    cases m <;> rfl

/-- Settles O52: FL and CF are legal for every argument, and memory is the argument. -/
theorem resetMeetsTheMachineInvariant : Obligations.ResetMeetsTheMachineInvariant :=
  ⟨fun m f _ h => resetWith_inv m f h, resetWith_inv true .equal rfl⟩

end Sys2Proof.Proofs
end
